-- ==== Sys2Proof/Word.lean ====
section
/-! DEFINITION. The widths the spec fixes (00_scope.md R6, R12): every value is unsigned. -/

namespace Sys2Proof

/-- A register, an immediate `nn`, a timer or a memory byte (R6, R20, R29). -/
abbrev Byte := BitVec 8

/-- An instruction word (30_encoding.md R70), and the 16-bit program counter (10_state.md R24). -/
abbrev Word := BitVec 16

/-- A 4-bit field: a register index or a count (R71). -/
abbrev Nibble := BitVec 4

/-- A 12-bit address field `nnn`, and the index register (R71, 10_state.md R27). -/
abbrev Addr := BitVec 12

end Sys2Proof
end

