-- ==== Sys2Proof/Config.lean ====
section
/-! DEFINITION. The configuration record of 10_state.md R46, and the one free value of the spec, the random byte. -/

namespace Sys2Proof

/-- The configuration fixed at construction and read-only to every instruction (00_scope.md R7 to R10, 10_state.md R35, R46). -/
structure Config where
  /-- `Q_SHIFT_Y`: 8xy6 and 8xyE shift V[y] instead of V[x]. -/
  qShiftY : Bool
  /-- `Q_JUMP_VX`: Bnnn adds V[nnn[11:8]] instead of V0. -/
  qJumpVx : Bool
  /-- `Q_INDEX_INC`: Fx55 and Fx65 advance I. -/
  qIndexInc : Bool
  /-- `Q_TRACE`: diagnostic only, no architectural effect (10_state.md R37). -/
  qTrace : Bool
  /-- `LOAD_ADDR` (R7). -/
  loadAddr : Addr
  /-- `FONT`: the bytes written at 0x050 at construction (R8, 10_state.md R33). -/
  font : List Byte
  /-- `STACK_LIMIT`: the call stack's bound, `none` for this hardware (R9). -/
  stackLimit : Option Nat
deriving DecidableEq, Repr

/-- The shape 00_scope.md R8 gives FONT: 16 glyphs of 5 bytes, the low nibble of each byte 0. -/
abbrev Config.wf (c : Config) : Prop :=
  c.font.length = 80 ∧ ∀ b ∈ c.font, b.extractLsb' 0 4 = 0#4

/-- `random8()` (42_alu.md R147): the n-th byte drawn from the random source.
A free value with no law; nothing can evaluate it. DESIGN CHOICE of form, safe (log 3). -/
opaque Config.randomByte : Nat → Byte

end Sys2Proof
end

