-- ==== Sys2Proof/Decode.lean ====
section
/-! DEFINITION. Decoding by the opcode map of 30_encoding.md R74, total on any bytes and rejecting by name;
then the encoder, written from the formats of R73. -/

namespace Sys2Proof

/-! ## Fields (R71) -/

/-- `op = w[15:12]` -/
def Word.op (w : Word) : Nibble := w.extractLsb' 12 4
/-- `x = w[11:8]` -/
def Word.x (w : Word) : Nibble := w.extractLsb' 8 4
/-- `y = w[7:4]` -/
def Word.y (w : Word) : Nibble := w.extractLsb' 4 4
/-- `n = w[3:0]` -/
def Word.n (w : Word) : Nibble := w.extractLsb' 0 4
/-- `nn = w[7:0]` -/
def Word.nn (w : Word) : Byte := w.extractLsb' 0 8
/-- `nnn = w[11:0]` -/
def Word.nnn (w : Word) : Addr := w.extractLsb' 0 12

/-- The word of two consecutive bytes, the one at the lower address high (20_memory.md R53). -/
def Word.ofBytes (b1 b2 : Byte) : Word := b1 ++ b2
/-- The byte at the lower address, bits [15:8] (R53). -/
def Word.hiByte (w : Word) : Byte := w.extractLsb' 8 8
/-- The byte at the higher address, bits [7:0] (R53). -/
def Word.loByte (w : Word) : Byte := w.extractLsb' 0 8

/-! ## The opcode map (R74) -/

/-- A row of R74: a word selects it when `(w & mask) = pattern`. -/
structure Row where
  pattern : Word
  mask : Word
  instr : Word → Instr

/-- `(w & mask) = match` of R74. -/
def Row.selects (r : Row) (w : Word) : Bool := w &&& r.mask == r.pattern

/-- Rows 1 to 10 of R74. -/
def opcodeRows1 : List Row := [
  ⟨0x00E0#16, 0xFFFF#16, fun _ => .cls⟩,
  ⟨0x00EE#16, 0xFFFF#16, fun _ => .ret⟩,
  ⟨0x0000#16, 0xF000#16, fun w => .sys w.nnn⟩,
  ⟨0x1000#16, 0xF000#16, fun w => .jp w.nnn⟩,
  ⟨0x2000#16, 0xF000#16, fun w => .call w.nnn⟩,
  ⟨0x3000#16, 0xF000#16, fun w => .seImm w.x w.nn⟩,
  ⟨0x4000#16, 0xF000#16, fun w => .sneImm w.x w.nn⟩,
  ⟨0x5000#16, 0xF00F#16, fun w => .seReg w.x w.y⟩,
  ⟨0x6000#16, 0xF000#16, fun w => .ldImm w.x w.nn⟩,
  ⟨0x7000#16, 0xF000#16, fun w => .addImm w.x w.nn⟩]

/-- Rows 11 to 20 of R74. -/
def opcodeRows2 : List Row := [
  ⟨0x8000#16, 0xF00F#16, fun w => .ldReg w.x w.y⟩,
  ⟨0x8001#16, 0xF00F#16, fun w => .orReg w.x w.y⟩,
  ⟨0x8002#16, 0xF00F#16, fun w => .andReg w.x w.y⟩,
  ⟨0x8003#16, 0xF00F#16, fun w => .xorReg w.x w.y⟩,
  ⟨0x8004#16, 0xF00F#16, fun w => .addReg w.x w.y⟩,
  ⟨0x8005#16, 0xF00F#16, fun w => .subReg w.x w.y⟩,
  ⟨0x8006#16, 0xF00F#16, fun w => .shrReg w.x w.y⟩,
  ⟨0x8007#16, 0xF00F#16, fun w => .subnReg w.x w.y⟩,
  ⟨0x800E#16, 0xF00F#16, fun w => .shlReg w.x w.y⟩,
  ⟨0x9000#16, 0xF00F#16, fun w => .sneReg w.x w.y⟩]

/-- Rows 21 to 35 of R74. -/
def opcodeRows3 : List Row := [
  ⟨0xA000#16, 0xF000#16, fun w => .ldI w.nnn⟩,
  ⟨0xB000#16, 0xF000#16, fun w => .jpV0 w.nnn⟩,
  ⟨0xC000#16, 0xF000#16, fun w => .rnd w.x w.nn⟩,
  ⟨0xD000#16, 0xF000#16, fun w => .drw w.x w.y w.n⟩,
  ⟨0xE09E#16, 0xF0FF#16, fun w => .skp w.x⟩,
  ⟨0xE0A1#16, 0xF0FF#16, fun w => .sknp w.x⟩,
  ⟨0xF007#16, 0xF0FF#16, fun w => .ldVxDT w.x⟩,
  ⟨0xF00A#16, 0xF0FF#16, fun w => .ldVxK w.x⟩,
  ⟨0xF015#16, 0xF0FF#16, fun w => .ldDTVx w.x⟩,
  ⟨0xF018#16, 0xF0FF#16, fun w => .ldSTVx w.x⟩,
  ⟨0xF01E#16, 0xF0FF#16, fun w => .addI w.x⟩,
  ⟨0xF029#16, 0xF0FF#16, fun w => .ldF w.x⟩,
  ⟨0xF033#16, 0xF0FF#16, fun w => .ldB w.x⟩,
  ⟨0xF055#16, 0xF0FF#16, fun w => .storeRegs w.x⟩,
  ⟨0xF065#16, 0xF0FF#16, fun w => .loadRegs w.x⟩]

/-- The whole opcode map, checked top to bottom (R74). -/
def opcodeTable : List Row := opcodeRows1 ++ opcodeRows2 ++ opcodeRows3

/-- Why bytes are not an instruction. -/
inductive DecodeError where
  /-- A word that matches no row of R74 (R76). -/
  | unknownInstruction (w : Word)
  /-- Fewer than the two bytes every instruction has (R70). -/
  | truncated (bytes : List Byte)
deriving DecidableEq, Repr

/-- Dispatch of one word by R74: the first row that selects it. -/
def decode (w : Word) : Except DecodeError Instr :=
  match opcodeTable.find? (·.selects w) with
  | some r => .ok (r.instr w)
  | none => .error (.unknownInstruction w)

/-- Decoding any bytes: the instruction of the first two and the bytes after them, or the reason there is none. -/
def decodeBytes : List Byte → Except DecodeError (Instr × List Byte)
  | b1 :: b2 :: rest =>
    match decode (Word.ofBytes b1 b2) with
    | .ok i => .ok (i, rest)
    | .error e => .error e
  | short => .error (.truncated short)

/-- The word of a table row given as a number: 16 bits, the bits above `nbits` being 0 (R70: no instruction is longer). -/
def tableWord (nbits w : Nat) : Word := BitVec.ofNat 16 (w % 2 ^ nbits)

/-- A word's bytes in memory order, the high byte first (R53). -/
def Word.toBytes (w : Word) : List Byte := [w.hiByte, w.loByte]

/-- The instruction the decoder reads from a table row's word laid out in memory order. -/
def decodeTableWord (nbits w : Nat) : Option Instr :=
  match decodeBytes (tableWord nbits w).toBytes with
  | .ok (i, _) => some i
  | .error _ => none

/-! ## The encoder (R73, R74) -/

/-- Format A: `[op:4][nnn:12]`. -/
def encA (op : Nibble) (nnn : Addr) : Word := op ++ nnn
/-- Format XNN: `[op:4][x:4][nn:8]`. -/
def encXNN (op x : Nibble) (nn : Byte) : Word := op ++ x ++ nn
/-- Formats XY and XYN: `[op:4][x:4][y:4][n:4]`. -/
def encXYN (op x y n : Nibble) : Word := op ++ x ++ y ++ n

/-- The word of an instruction. -/
def encode : Instr → Word
  | .cls => 0x00E0#16
  | .ret => 0x00EE#16
  | .sys nnn => encA 0x0#4 nnn
  | .jp nnn => encA 0x1#4 nnn
  | .call nnn => encA 0x2#4 nnn
  | .seImm x nn => encXNN 0x3#4 x nn
  | .sneImm x nn => encXNN 0x4#4 x nn
  | .seReg x y => encXYN 0x5#4 x y 0x0#4
  | .ldImm x nn => encXNN 0x6#4 x nn
  | .addImm x nn => encXNN 0x7#4 x nn
  | .ldReg x y => encXYN 0x8#4 x y 0x0#4
  | .orReg x y => encXYN 0x8#4 x y 0x1#4
  | .andReg x y => encXYN 0x8#4 x y 0x2#4
  | .xorReg x y => encXYN 0x8#4 x y 0x3#4
  | .addReg x y => encXYN 0x8#4 x y 0x4#4
  | .subReg x y => encXYN 0x8#4 x y 0x5#4
  | .shrReg x y => encXYN 0x8#4 x y 0x6#4
  | .subnReg x y => encXYN 0x8#4 x y 0x7#4
  | .shlReg x y => encXYN 0x8#4 x y 0xE#4
  | .sneReg x y => encXYN 0x9#4 x y 0x0#4
  | .ldI nnn => encA 0xA#4 nnn
  | .jpV0 nnn => encA 0xB#4 nnn
  | .rnd x nn => encXNN 0xC#4 x nn
  | .drw x y n => encXYN 0xD#4 x y n
  | .skp x => encXNN 0xE#4 x 0x9E#8
  | .sknp x => encXNN 0xE#4 x 0xA1#8
  | .ldVxDT x => encXNN 0xF#4 x 0x07#8
  | .ldVxK x => encXNN 0xF#4 x 0x0A#8
  | .ldDTVx x => encXNN 0xF#4 x 0x15#8
  | .ldSTVx x => encXNN 0xF#4 x 0x18#8
  | .addI x => encXNN 0xF#4 x 0x1E#8
  | .ldF x => encXNN 0xF#4 x 0x29#8
  | .ldB x => encXNN 0xF#4 x 0x33#8
  | .storeRegs x => encXNN 0xF#4 x 0x55#8
  | .loadRegs x => encXNN 0xF#4 x 0x65#8

/-- An instruction's bytes in memory order (20_memory.md R53). -/
def encodeBytes (i : Instr) : List Byte := (encode i).toBytes

end Sys2Proof
end

