-- ==== Sys2Proof/Machine/Grid.lean ====
section
/-! DEFINITION. PixelGrid and its XOR rasterizer (10_state.md R31, R32; 40_display.md R100 to R102). -/

namespace Sys2Proof.Machine

/-- 32 rows, each a 64-bit mask whose bit c is column c (R31, D18; log 13). -/
abbrev Grid := Vector (BitVec 64) 32

/-- The all-clear grid (R100, 10_state.md R47). -/
def Grid.clear : Grid := Vector.replicate 32 0#64

/-- The mask of row r. -/
def Grid.row (g : Grid) (r : Nat) : BitVec 64 := g[r]?.getD 0#64

/-- `P[r][c]`. -/
def Grid.pixel (g : Grid) (r c : Nat) : Bool := (g.row r).getLsbD c

/-- `Toggle(r, c)` of R101: flip the pixel and report whether it was on. -/
def Grid.toggle (g : Grid) (r c : Nat) : Grid × Bool :=
  (g.setIfInBounds r (g.row r ^^^ (1#64 <<< c)), g.pixel r c)

/-- A sprite byte's bits, bit 7 (the leftmost column) first (R102). -/
def spriteBits (b : Byte) : List Bool := (List.range 8).map (fun c => b.getLsbD (7 - c))

/-- The inner loop of R102 from column px: set bits toggle, the rest of the row past column 63 is not drawn. -/
def Grid.drawBits (g : Grid) (py px : Nat) : List Bool → Grid × Bool
  | [] => (g, false)
  | bit :: bits =>
    if px > 63 then (g, false)
    else
      let here := if bit then g.toggle py px else (g, false)
      let rest := Grid.drawBits here.1 py (px + 1) bits
      (rest.1, here.2 || rest.2)

/-- The outer loop of R102 from row py: rows past row 31 are not drawn. The Bool is `coll`. -/
def Grid.drawRows (g : Grid) (x0 py : Nat) : List Byte → Grid × Bool
  | [] => (g, false)
  | b :: bs =>
    if py > 31 then (g, false)
    else
      let here := g.drawBits py x0 (spriteBits b)
      let rest := Grid.drawRows here.1 x0 (py + 1) bs
      (rest.1, here.2 || rest.2)

end Sys2Proof.Machine
end

