-- ==== Sys2Proof/Machine/Hardware.lean ====
section
/-! DEFINITION. This hardware's configuration values: the default font table of 10_state.md R33 and the record of R46. -/

namespace Sys2Proof.Machine

/-- Glyphs 0 to 7 of R33, five bytes each, top row first. PRESUMED values (the spec marks them as general knowledge, D24; log 6). -/
def fontLow : List Byte :=
  [0xF0, 0x90, 0x90, 0x90, 0xF0] ++ [0x20, 0x60, 0x20, 0x20, 0x70] ++
  [0xF0, 0x10, 0xF0, 0x80, 0xF0] ++ [0xF0, 0x10, 0xF0, 0x10, 0xF0] ++
  [0x90, 0x90, 0xF0, 0x10, 0x10] ++ [0xF0, 0x80, 0xF0, 0x10, 0xF0] ++
  [0xF0, 0x80, 0xF0, 0x90, 0xF0] ++ [0xF0, 0x10, 0x20, 0x40, 0x40]

/-- Glyphs 8 to F of R33. PRESUMED values (D24; log 6). -/
def fontHigh : List Byte :=
  [0xF0, 0x90, 0xF0, 0x90, 0xF0] ++ [0xF0, 0x90, 0xF0, 0x10, 0xF0] ++
  [0xF0, 0x90, 0xF0, 0x90, 0x90] ++ [0xE0, 0x90, 0xE0, 0x90, 0xE0] ++
  [0xF0, 0x80, 0x80, 0x80, 0xF0] ++ [0xE0, 0x90, 0x90, 0x90, 0xE0] ++
  [0xF0, 0x80, 0xF0, 0x80, 0xF0] ++ [0xF0, 0x80, 0xF0, 0x80, 0x80]

/-- The default `FONT` of R33: 80 bytes for 0x050 to 0x09F. -/
def defaultFont : List Byte := fontLow ++ fontHigh

/-- `LOAD_ADDR` of this hardware (00_scope.md R7, D22). -/
def defaultLoadAddr : Addr := 0x200#12

/-- The configuration `State.reset` is constructed with. `loadAddr` and `stackLimit` are the spec's (R7, R9);
the quirk flags have no default in the spec (D20): DESIGN CHOICE false, unsafe (log 7). -/
def hardwareConfig : Config where
  qShiftY := false
  qJumpVx := false
  qIndexInc := false
  qTrace := false
  loadAddr := defaultLoadAddr
  font := defaultFont
  stackLimit := none

end Sys2Proof.Machine
end

