-- ==== Sys2Proof/Machine/Memory.lean ====
section
/-! DEFINITION. AddressSpace (10_state.md R33; 20_memory.md R50 to R59): one flat space of 4096 bytes, held as a list of
(address, byte) pairs in canonical form. Bounds are checked by the instruction before any access (R52), not here. -/

namespace Sys2Proof.Machine

/-- The bytes of AddressSpace that differ from `Memory.unlisted`, by rising address. -/
abbrev Memory := List Host.Cell

/-- The highest address, 0xFFF (R50). -/
def topAddr : Nat := 0xFFF

/-- What an address that is not listed reads as: the default font at 0x050 to 0x09F (10_state.md R33), and 0x00 elsewhere,
where the spec leaves the reset contents unspecified (R47, D9). DESIGN CHOICE 0x00, unsafe (log 5). -/
def Memory.unlisted (a : Nat) : Byte :=
  if 0x050 ≤ a ∧ a ≤ 0x09F then defaultFont.getD (a - 0x050) 0x00#8 else 0x00#8

/-- The listed byte at an address. -/
def Memory.find : Memory → Nat → Option Byte
  | [], _ => none
  | (b, v) :: m, a => if a = b then some v else Memory.find m a

/-- `MemRead(a, 1)` (00_scope.md R14) for an address already checked. -/
def Memory.read (m : Memory) (a : Nat) : Byte := (m.find a).getD (Memory.unlisted a)

/-- Insert a cell before the first higher address. -/
def Memory.place (a : Nat) (v : Byte) : Memory → Memory
  | [] => [(a, v)]
  | (b, u) :: m => if a < b then (a, v) :: (b, u) :: m else (b, u) :: Memory.place a v m

/-- Remove the cell of an address. -/
def Memory.erase (m : Memory) (a : Nat) : Memory := m.filter (fun c => c.1 != a)

/-- `MemWrite(a, 1, v)` (R14) for an address already checked. No address is protected (20_memory.md R58).
Writing what the address reads as unlisted removes its cell, so equal memories are equal lists. -/
def Memory.write (m : Memory) (a : Nat) (v : Byte) : Memory :=
  if v = Memory.unlisted a then m.erase a else Memory.place a v (m.erase a)

/-- 1-byte writes at increasing addresses (20_memory.md R55). -/
def Memory.writeBytes (m : Memory) (a : Nat) : List Byte → Memory
  | [] => m
  | v :: vs => Memory.writeBytes (m.write a v) (a + 1) vs

/-- 1-byte reads at `n` increasing addresses (R55). -/
def Memory.readBytes (m : Memory) (a : Nat) : Nat → List Byte
  | 0 => []
  | n + 1 => m.read a :: Memory.readBytes m (a + 1) n

/-- The canonical form: addresses strictly rising, inside the space, no cell equal to what its address reads as unlisted. -/
abbrev Memory.wf (m : Memory) : Prop :=
  m.Pairwise (fun c d => c.1 < d.1) ∧ ∀ c ∈ m, c.1 ≤ topAddr ∧ c.2 ≠ Memory.unlisted c.1

end Sys2Proof.Machine
end

