-- ==== Sys2Proof/Machine/State.lean ====
section
/-! DEFINITION. The machine's state (10_state.md R46), plain data; the reasons a step can stop; the state after reset (R47). -/

namespace Sys2Proof.Machine

/-- The fault codes of 60_exceptions.md R170. -/
inductive FaultCode where
  /-- 1: dispatch, a word that matches no row (R76). -/
  | unknownInstruction
  /-- 2: SYS (R111). -/
  | legacyMachineCode
  /-- 3: RET on an empty stack (R110). -/
  | stackUnderflow
  /-- 4: the fetch, when ia + 1 > 0xFFF (R173). -/
  | addressOutOfRangeFetch
  /-- 5: Dxyn, Fx33, Fx55, Fx65 whose highest address is above 0xFFF (R174). -/
  | addressOutOfRangeData
  /-- 6: CALL at depth STACK_LIMIT, only if a bound is configured (R172). -/
  | stackOverflow
deriving DecidableEq, Repr

/-- The fault record `{code, ia, w?, addr?}` of 60_exceptions.md R176. -/
structure FaultRecord where
  code : FaultCode
  /-- the address of the faulting instruction -/
  ia : Word
  /-- the instruction word, absent for a failed fetch -/
  word : Option Word
  /-- the highest address, for a data fault only; an unbounded sum (20_memory.md R52) -/
  addr : Option Nat
deriving DecidableEq, Repr

/-- The record as the host reads it, `f = {code, ia, w?, addr?}` with the code's number (60_exceptions.md R170, R176). -/
structure FaultReport where
  code : Nat
  ia : Word
  word : Option Word
  addr : Option Nat
deriving DecidableEq, Repr

/-- One step of the total order of 20_memory.md R60, or the host's shutdown (10_state.md R48). -/
inductive Turn where
  /-- (a) one whole instruction -/
  | engine
  /-- (b) one timer tick -/
  | tick
  /-- (c) the host replaces KeypadState by this snapshot -/
  | keypad (snapshot : Vector Bool 16)
  /-- (d) the host reads PixelGrid -/
  | readGrid
  /-- (e) the host edits RuntimeThrottle, which is no architectural state -/
  | editThrottle
  /-- the host stops every agent (R48) -/
  | shutdown
deriving DecidableEq, Repr

/-- The complete architectural state of R46 under the spec's own names, the configuration, and two fields of the model's own. -/
structure State where
  /-- V0 to VF (R20) -/
  V : Vector Byte 16
  /-- the index register (R27) -/
  I : Addr
  /-- the program counter (R24): between steps, the address of the next instruction -/
  pc : Word
  /-- the call stack, top at the head (R28) -/
  S : List Word
  /-- delay_timer (R29) -/
  DT : Byte
  /-- sound_timer (R29) -/
  ST : Byte
  /-- PixelGrid (R31) -/
  P : Grid
  /-- AddressSpace (R33) -/
  M : Memory
  /-- KeypadState, written by the host only (R30) -/
  K : Vector Bool 16
  /-- the fault record (R39) -/
  F : Option FaultRecord
  /-- the configuration of R46, which no step writes (R35; log 7) -/
  cfg : Config
  /-- MODEL'S OWN: how many random bytes have been drawn (42_alu.md R147; log 3) -/
  draws : Nat
  /-- MODEL'S OWN: the turns still to come, the next at the head; when empty, the engine moves (20_memory.md R60; log 2) -/
  agenda : List Turn
deriving DecidableEq, Repr

/-- Why a step has no next state. -/
inductive Fault where
  /-- An engine turn in a halted machine: once `F = some f` "the engine takes no further step" (10_state.md R39,
  60_exceptions.md R176). Raised by `engineStep` only, never by an instruction. Safe: the hardware has no such step either. -/
  | engineHalted (record : FaultRecord)
deriving DecidableEq, Repr

/-- Why the model gives a step no meaning. -/
inductive Refusal where
  /-- An instruction without a meaning, by its mnemonic. No arm of this model raises it. Safe. -/
  | notModelled (mnemonic : String)
  /-- A `shutdown` turn: the host stopped the machine, and the spec says nothing of a run the host shuts down
  (10_state.md R48). Raised by `step` only, never by an instruction. Safe. -/
  | hostShutdown
deriving DecidableEq, Repr

/-- The state after reset (R47, 70_reset_and_hazards.md R190). `I`, the quirk flags and unlisted bytes have no value
in the spec: DESIGN CHOICE (logs 4, 7, 5). No program is loaded (log 8). -/
def State.reset : State where
  V := Vector.replicate 16 0x00#8
  I := 0x000#12
  pc := hardwareConfig.loadAddr.setWidth 16
  S := []
  DT := 0x00#8
  ST := 0x00#8
  P := Grid.clear
  M := []
  K := Vector.replicate 16 false
  F := none
  cfg := hardwareConfig
  draws := 0
  agenda := []

end Sys2Proof.Machine
end

