-- ==== Sys2Proof/Machine/Ops.lean ====
section
/-! DEFINITION. The named operations over the state that every meaning is written with.
A meaning runs at the state BEFORE the fetch, whose pc is `ia`; `State.advance` is the fetch's step of pc
(30_encoding.md R72, log 9). -/

namespace Sys2Proof.Machine

/-! ## Registers (10_state.md R20) -/

/-- Register number `x` as an index. -/
def regIndex (x : Nibble) : Fin 16 := ⟨x.toNat, x.isLt⟩

/-- `V[x]` -/
def State.reg (s : State) (x : Nibble) : Byte := s.V[regIndex x]

/-- `V[x] <- v` -/
def State.setReg (s : State) (x : Nibble) (v : Byte) : State := { s with V := s.V.set (regIndex x) v }

/-- The flag register's number (R22). -/
abbrev flagReg : Nibble := 0xF#4

/-- `V[x] <- v; VF <- f`, the flag written last, so it wins when x = 0xF (00_scope.md R15, D2). -/
def State.setRegFlag (s : State) (x : Nibble) (v f : Byte) : State := (s.setReg x v).setReg flagReg f

/-- A register file with `V[k] <- b` for the bytes of a list, k rising from the given register (43_index_memory.md R155). -/
def loadFile (v : Vector Byte 16) (k : Nat) : List Byte → Vector Byte 16
  | [] => v
  | b :: bs => loadFile (v.set (regIndex (BitVec.ofNat 4 k)) b) (k + 1) bs

/-- `V[0], V[1], ... <- bs` (R155). -/
def State.loadRegs (s : State) (bs : List Byte) : State := { s with V := loadFile s.V 0 bs }

/-- `V[0] .. V[x]` as bytes (R154). -/
def State.regsUpTo (s : State) (x : Nibble) : List Byte :=
  (List.range (x.toNat + 1)).map (fun k => s.reg (BitVec.ofNat 4 k))

/-! ## Program counter (10_state.md R24) -/

/-- pc past the fetched word: `ia + 2`. -/
def State.advance (s : State) : State := { s with pc := s.pc + 2 }

/-- `ia + 2`, and 2 more when the skip is taken (41_control_flow.md R119). -/
def State.skipIf (s : State) (taken : Bool) : State :=
  if taken then { s.advance with pc := s.advance.pc + 2 } else s.advance

/-- `pc <- target` -/
def State.jumpTo (s : State) (target : Word) : State := { s with pc := target }

/-! ## Call stack (R28) -/

/-- `length(S) = k` for a configured bound k (41_control_flow.md R113). -/
def State.stackFull (s : State) : Bool :=
  match s.cfg.stackLimit with
  | none => false
  | some k => s.S.length == k

/-- `push(S, a)` -/
def State.push (s : State) (a : Word) : State := { s with S := a :: s.S }

/-! ## Raising a fault (60_exceptions.md R175, R176)

The one entry into the halted state: the only effect is `F <- some {code, ia, w, addr}`. -/

/-- The number of each code, 1 to 6 (R170; the numbers are the spec's own, D5). -/
def FaultCode.number : FaultCode → Nat
  | .unknownInstruction => 1
  | .legacyMachineCode => 2
  | .stackUnderflow => 3
  | .addressOutOfRangeFetch => 4
  | .addressOutOfRangeData => 5
  | .stackOverflow => 6

/-- What the host reads of a record (R176). -/
def FaultRecord.report (f : FaultRecord) : FaultReport :=
  { code := f.code.number, ia := f.ia, word := f.word, addr := f.addr }

/-- `raise`: the record names the instruction at pc, and nothing else changes. -/
def State.raise (s : State) (code : FaultCode) (word : Option Word) (addr : Option Nat) : State :=
  { s with F := some { code := code, ia := s.pc, word := word, addr := addr } }

/-- A fault of instruction `i`, whose word is its encoding (log 9). -/
def State.raiseAt (s : State) (code : FaultCode) (i : Instr) : State := s.raise code (some (encode i)) none

/-- A data access whose highest address is `hi`: checked before any effect (20_memory.md R52, 60_exceptions.md R174). -/
def checked (s : State) (i : Instr) (hi : Nat) (done : State) : Host.Outcome State Fault Refusal :=
  if hi > topAddr then .next (s.raise .addressOutOfRangeData (some (encode i)) (some hi)) else .next done

/-! ## Instruction fetch (30_encoding.md R72, 20_memory.md R53) -/

/-- The fetch reads pc and pc + 1, both at most 0xFFF (60_exceptions.md R173). -/
def State.fetchable (s : State) : Bool := decide (s.pc.toNat + 1 ≤ topAddr)

/-- The big-endian word at an address. -/
def Memory.wordAt (m : Memory) (a : Nat) : Word := Word.ofBytes (m.read a) (m.read (a + 1))

/-- The word at pc, none when the fetch would read past 0xFFF. -/
def State.fetch (s : State) : Option Word :=
  if s.fetchable then some (s.M.wordAt s.pc.toNat) else none

/-- A word stored at an address, the high byte first. -/
def Memory.writeWord (m : Memory) (a : Nat) (w : Word) : Memory := m.writeBytes a w.toBytes

/-- The state whose very next step fetches this word: no fault, the engine to move, a pc that can be fetched
(pc itself where it can, else LOAD_ADDR's default), the word's bytes at pc. -/
def State.placeWord (s : State) (w : Word) : State :=
  let pc := if s.fetchable then s.pc else defaultLoadAddr.setWidth 16
  { s with pc := pc, M := s.M.writeWord pc.toNat w, F := none, agenda := [] }

end Sys2Proof.Machine
end

