-- ==== Sys2Proof/Machine/Operands.lean ====
section
/-! DEFINITION. Operand forms: field extensions, register-selected keys, quirk-selected operands, addresses. -/

namespace Sys2Proof.Machine

/-- `zext_16(nnn)` (00_scope.md R14, 30_encoding.md R71). -/
def zextAddr (nnn : Addr) : Word := nnn.setWidth 16

/-- `zext_16(V[r])`. -/
def zextByte (b : Byte) : Word := b.setWidth 16

/-- Key number of a register value: `V[x] & 0x0F` (44_timers_keys.md R160). -/
def keyNumber (b : Byte) : Nibble := b.extractLsb' 0 4

/-- `K[k]` (10_state.md R30). -/
def State.keyDown (s : State) (k : Nibble) : Bool := s.K[regIndex k]

/-- "first true flag by ascending index" (44_timers_keys.md R164). -/
def State.firstKeyDown (s : State) : Option Nibble :=
  ((List.range 16).map (BitVec.ofNat 4)).find? s.keyDown

/-- The value 8xy6 and 8xyE shift: V[y] with `Q_SHIFT_Y`, else V[x] (42_alu.md R138, R140). -/
def State.shiftSource (s : State) (x y : Nibble) : Byte := if s.cfg.qShiftY then s.reg y else s.reg x

/-- The register Bnnn adds: nnn[11:8] with `Q_JUMP_VX`, else 0 (41_control_flow.md R118). -/
def State.jumpReg (s : State) (nnn : Addr) : Nibble := if s.cfg.qJumpVx then nnn.extractLsb' 8 4 else 0x0#4

/-- `I + k`, never wrapped (20_memory.md R52). -/
def State.dataAddr (s : State) (k : Nat) : Nat := s.I.toNat + k

/-- I after Fx55 and Fx65 (43_index_memory.md R157, D7). -/
def State.indexAfterBulk (s : State) (x : Nibble) : Addr :=
  if s.cfg.qIndexInc then BitVec.ofNat 12 ((s.I.toNat + x.toNat + 1) % 4096) else s.I

/-- The glyph address of a register value's low nibble (43_index_memory.md R152). -/
def glyphAddr (b : Byte) : Addr := BitVec.ofNat 12 (0x050 + 5 * (b &&& 0x0F#8).toNat)

/-- The three decimal digits, hundreds first (43_index_memory.md R153). -/
def bcdDigits (b : Byte) : List Byte :=
  [BitVec.ofNat 8 (b.toNat / 100), BitVec.ofNat 8 (b.toNat / 10 % 10), BitVec.ofNat 8 (b.toNat % 10)]

/-- A sprite's start column `V[x] mod 64` and start row `V[y] mod 32` (40_display.md R102). -/
def State.spriteCol (s : State) (x : Nibble) : Nat := (s.reg x).toNat % 64
@[inherit_doc State.spriteCol]
def State.spriteRow (s : State) (y : Nibble) : Nat := (s.reg y).toNat % 32

end Sys2Proof.Machine
end

