-- ==== Sys2Proof/Machine/Flags.lean ====
section
/-! DEFINITION. The results and VF values of the arithmetic rules (42_alu.md, 10_state.md R22): exact sums, then narrowed.
Each flag is 0 or 1. -/

namespace Sys2Proof.Machine

/-- A flag value as VF holds it (R22). -/
def flagByte (b : Bool) : Byte := if b then 0x01#8 else 0x00#8

/-- `zext_9(a) + zext_9(b)` (R136). -/
def sum9 (a b : Byte) : BitVec 9 := a.setWidth 9 + b.setWidth 9

/-- `s[7:0]` (R136). -/
def addResult (a b : Byte) : Byte := (sum9 a b).extractLsb' 0 8

/-- `s[8]`, the carry (R136). -/
def carryOut (a b : Byte) : Bool := (sum9 a b).getLsbD 8

/-- `(a - b) mod 256` (R137). -/
def subResult (a b : Byte) : Byte := BitVec.ofInt 8 ((a.toNat : Int) - (b.toNat : Int))

/-- 1 when `a - b` does not borrow: `a >= b` (R137, R139, D32). -/
def notBorrow (a b : Byte) : Bool := decide (b.toNat ≤ a.toNat)

/-- `src >> 1`, logical (R138). -/
def shrResult (a : Byte) : Byte := a >>> 1

/-- `src[0]` (R138). -/
def shrOut (a : Byte) : Bool := a.getLsbD 0

/-- `(src << 1) mod 256` (R140). -/
def shlResult (a : Byte) : Byte := a <<< 1

/-- `src[7]` (R140). -/
def shlOut (a : Byte) : Bool := a.getLsbD 7

/-- `zext_16(I) + zext_16(V[x])` (43_index_memory.md R151). -/
def indexSum (i : Addr) (b : Byte) : Nat := i.toNat + b.toNat

/-- The sum "reaches or exceeds 4096" (R151). -/
def indexOverflow (i : Addr) (b : Byte) : Bool := decide (4096 ≤ indexSum i b)

end Sys2Proof.Machine
end

