-- ==== Sys2Proof/Machine/Alu.lean ====
section
/-! DEFINITION. Register and arithmetic instructions (42_alu.md). -/

namespace Sys2Proof.Machine

/-- 6xnn LD Vx, nn (R130). -/
def execLdImm (x : Nibble) (nn : Byte) (s : State) : Host.Outcome State Fault Refusal :=
  .next (s.advance.setReg x nn)

/-- 7xnn ADD Vx, nn (R131): no flag. -/
def execAddImm (x : Nibble) (nn : Byte) (s : State) : Host.Outcome State Fault Refusal :=
  .next (s.advance.setReg x (addResult (s.reg x) nn))

/-- 8xy0 LD Vx, Vy (R132). -/
def execLdReg (x y : Nibble) (s : State) : Host.Outcome State Fault Refusal :=
  .next (s.advance.setReg x (s.reg y))

/-- 8xy1 OR Vx, Vy (R133). -/
def execOrReg (x y : Nibble) (s : State) : Host.Outcome State Fault Refusal :=
  .next (s.advance.setRegFlag x (s.reg x ||| s.reg y) 0x00#8)

/-- 8xy2 AND Vx, Vy (R134). -/
def execAndReg (x y : Nibble) (s : State) : Host.Outcome State Fault Refusal :=
  .next (s.advance.setRegFlag x (s.reg x &&& s.reg y) 0x00#8)

/-- 8xy3 XOR Vx, Vy (R135). -/
def execXorReg (x y : Nibble) (s : State) : Host.Outcome State Fault Refusal :=
  .next (s.advance.setRegFlag x (s.reg x ^^^ s.reg y) 0x00#8)

/-- 8xy4 ADD Vx, Vy (R136). -/
def execAddReg (x y : Nibble) (s : State) : Host.Outcome State Fault Refusal :=
  .next (s.advance.setRegFlag x (addResult (s.reg x) (s.reg y)) (flagByte (carryOut (s.reg x) (s.reg y))))

/-- 8xy5 SUB Vx, Vy (R137). -/
def execSubReg (x y : Nibble) (s : State) : Host.Outcome State Fault Refusal :=
  .next (s.advance.setRegFlag x (subResult (s.reg x) (s.reg y)) (flagByte (notBorrow (s.reg x) (s.reg y))))

/-- 8xy6 SHR Vx, Vy (R138). -/
def execShrReg (x y : Nibble) (s : State) : Host.Outcome State Fault Refusal :=
  .next (s.advance.setRegFlag x (shrResult (s.shiftSource x y)) (flagByte (shrOut (s.shiftSource x y))))

/-- 8xy7 SUBN Vx, Vy (R139). -/
def execSubnReg (x y : Nibble) (s : State) : Host.Outcome State Fault Refusal :=
  .next (s.advance.setRegFlag x (subResult (s.reg y) (s.reg x)) (flagByte (notBorrow (s.reg y) (s.reg x))))

/-- 8xyE SHL Vx, Vy (R140). -/
def execShlReg (x y : Nibble) (s : State) : Host.Outcome State Fault Refusal :=
  .next (s.advance.setRegFlag x (shlResult (s.shiftSource x y)) (flagByte (shlOut (s.shiftSource x y))))

/-- Cxnn RND Vx, nn (R141, R147): the free byte of this draw, masked; the next draw is another (log 3). -/
def execRnd (x : Nibble) (nn : Byte) (s : State) : Host.Outcome State Fault Refusal :=
  .next { s.advance.setReg x (Config.randomByte s.draws &&& nn) with draws := s.draws + 1 }

end Sys2Proof.Machine
end

