-- ==== Sys2Proof/Machine/Control.lean ====
section
/-! DEFINITION. Control transfer and skips (41_control_flow.md). -/

namespace Sys2Proof.Machine

/-- 00EE RET (R110). -/
def execRet (s : State) : Host.Outcome State Fault Refusal :=
  match s.S with
  | [] => .next (s.raiseAt .stackUnderflow .ret)
  | a :: rest => .next ({ s with S := rest }.jumpTo a)

/-- 0nnn SYS nnn (R111): always the LegacyMachineCode fault. -/
def execSys (nnn : Addr) (s : State) : Host.Outcome State Fault Refusal :=
  .next (s.raiseAt .legacyMachineCode (.sys nnn))

/-- 1nnn JP nnn (R112). -/
def execJp (nnn : Addr) (s : State) : Host.Outcome State Fault Refusal := .next (s.jumpTo (zextAddr nnn))

/-- 2nnn CALL nnn (R113): pushes `ia + 2`. -/
def execCall (nnn : Addr) (s : State) : Host.Outcome State Fault Refusal :=
  if s.stackFull then .next (s.raiseAt .stackOverflow (.call nnn))
  else .next ((s.advance.push s.advance.pc).jumpTo (zextAddr nnn))

/-- 3xnn SE Vx, nn (R114). -/
def execSeImm (x : Nibble) (nn : Byte) (s : State) : Host.Outcome State Fault Refusal :=
  .next (s.skipIf (s.reg x == nn))

/-- 4xnn SNE Vx, nn (R115). -/
def execSneImm (x : Nibble) (nn : Byte) (s : State) : Host.Outcome State Fault Refusal :=
  .next (s.skipIf (s.reg x != nn))

/-- 5xy0 SE Vx, Vy (R116). -/
def execSeReg (x y : Nibble) (s : State) : Host.Outcome State Fault Refusal :=
  .next (s.skipIf (s.reg x == s.reg y))

/-- 9xy0 SNE Vx, Vy (R117). -/
def execSneReg (x y : Nibble) (s : State) : Host.Outcome State Fault Refusal :=
  .next (s.skipIf (s.reg x != s.reg y))

/-- Bnnn JP V0, nnn (R118): a 16-bit sum, never wrapped. -/
def execJpV0 (nnn : Addr) (s : State) : Host.Outcome State Fault Refusal :=
  .next (s.jumpTo (zextAddr nnn + zextByte (s.reg (s.jumpReg nnn))))

end Sys2Proof.Machine
end

