-- ==== Sys2Proof/Machine/Display.lean ====
section
/-! DEFINITION. Display instructions (40_display.md). -/

namespace Sys2Proof.Machine

/-- 00E0 CLS (R100). -/
def execCls (s : State) : Host.Outcome State Fault Refusal := .next { s.advance with P := Grid.clear }

/-- The drawn grid and the collision bit of Dxyn's loops (R102). -/
def State.drawn (s : State) (x y n : Nibble) : Grid × Bool :=
  s.P.drawRows (s.spriteCol x) (s.spriteRow y) (s.M.readBytes s.I.toNat n.toNat)

/-- Dxyn DRW Vx, Vy, n (R102): all n rows are checked first; VF is always written, last. -/
def execDrw (x y n : Nibble) (s : State) : Host.Outcome State Fault Refusal :=
  let done := { s.advance with P := (s.drawn x y n).1 }.setReg flagReg (flagByte (s.drawn x y n).2)
  if n.toNat = 0 then .next done else checked s (.drw x y n) (s.dataAddr (n.toNat - 1)) done

end Sys2Proof.Machine
end

