-- ==== Sys2Proof/Machine/IndexMemory.lean ====
section
/-! DEFINITION. Index register and memory instructions (43_index_memory.md). -/

namespace Sys2Proof.Machine

/-- Annn LD I, nnn (R150). -/
def execLdI (nnn : Addr) (s : State) : Host.Outcome State Fault Refusal := .next { s.advance with I := nnn }

/-- Fx1E ADD I, Vx (R151): on overflow I wraps and VF <- 1, else VF is not written (D6). -/
def execAddI (x : Nibble) (s : State) : Host.Outcome State Fault Refusal :=
  let sum := indexSum s.I (s.reg x)
  if indexOverflow s.I (s.reg x) then
    .next ({ s.advance with I := BitVec.ofNat 12 (sum - 4096) }.setReg flagReg 0x01#8)
  else .next { s.advance with I := BitVec.ofNat 12 sum }

/-- Fx29 LD F, Vx (R152). -/
def execLdF (x : Nibble) (s : State) : Host.Outcome State Fault Refusal :=
  .next { s.advance with I := glyphAddr (s.reg x) }

/-- Fx33 LD B, Vx (R153). -/
def execLdB (x : Nibble) (s : State) : Host.Outcome State Fault Refusal :=
  checked s (.ldB x) (s.dataAddr 2) { s.advance with M := s.M.writeBytes (s.dataAddr 0) (bcdDigits (s.reg x)) }

/-- Fx55 LD [I], Vx (R154, R157). -/
def execStoreRegs (x : Nibble) (s : State) : Host.Outcome State Fault Refusal :=
  checked s (.storeRegs x) (s.dataAddr x.toNat)
    { s.advance with M := s.M.writeBytes (s.dataAddr 0) (s.regsUpTo x), I := s.indexAfterBulk x }

/-- Fx65 LD Vx, [I] (R155, R157). -/
def execLoadRegs (x : Nibble) (s : State) : Host.Outcome State Fault Refusal :=
  checked s (.loadRegs x) (s.dataAddr x.toNat)
    { s.advance.loadRegs (s.M.readBytes (s.dataAddr 0) (x.toNat + 1)) with I := s.indexAfterBulk x }

end Sys2Proof.Machine
end

