-- ==== Sys2Proof/Machine/KeysTimers.lean ====
section
/-! DEFINITION. Keypad and timer instructions (44_timers_keys.md). -/

namespace Sys2Proof.Machine

/-- Ex9E SKP Vx (R161). -/
def execSkp (x : Nibble) (s : State) : Host.Outcome State Fault Refusal :=
  .next (s.skipIf (s.keyDown (keyNumber (s.reg x))))

/-- ExA1 SKNP Vx (R162). -/
def execSknp (x : Nibble) (s : State) : Host.Outcome State Fault Refusal :=
  .next (s.skipIf (!s.keyDown (keyNumber (s.reg x))))

/-- Fx07 LD Vx, DT (R163). -/
def execLdVxDT (x : Nibble) (s : State) : Host.Outcome State Fault Refusal := .next (s.advance.setReg x s.DT)

/-- Fx0A LD Vx, K (R164): the lowest key down, or pc back to `ia` so that the same instruction runs again. -/
def execLdVxK (x : Nibble) (s : State) : Host.Outcome State Fault Refusal :=
  match s.firstKeyDown with
  | some k => .next (s.advance.setReg x (k.setWidth 8))
  | none => .next (s.advance.jumpTo (s.advance.pc - 2))

/-- Fx15 LD DT, Vx (R165). -/
def execLdDTVx (x : Nibble) (s : State) : Host.Outcome State Fault Refusal := .next { s.advance with DT := s.reg x }

/-- Fx18 LD ST, Vx (R166). -/
def execLdSTVx (x : Nibble) (s : State) : Host.Outcome State Fault Refusal := .next { s.advance with ST := s.reg x }

end Sys2Proof.Machine
end

