-- ==== Sys2Proof/Machine/Engine.lean ====
section
/-! DEFINITION. The engine step (30_encoding.md R72) and the steps of the other agents (20_memory.md R60). -/

namespace Sys2Proof.Machine

/-- EngineStep (R72): a halted engine has none; a failed fetch and an unknown word raise their faults (R173, R76);
otherwise the fetched word's instruction runs. -/
def engineStep (s : State) : Host.Outcome State Fault Refusal :=
  match s.F with
  | some record => .fault (.engineHalted record)
  | none =>
    match s.fetch with
    | none => .next (s.raise .addressOutOfRangeFetch none none)
    | some w =>
      match decode w with
      | .error _ => .next (s.raise .unknownInstruction (some w) none)
      | .ok i => exec i s

/-- A counter after one tick: one less, saturating at zero (10_state.md R29). -/
def ticked (b : Byte) : Byte := if b.toNat > 0 then b - 1 else b

/-- TimerTick (44_timers_keys.md R168): both counters in one step, also after a halt. -/
def State.tick (s : State) : State := { s with DT := ticked s.DT, ST := ticked s.ST }

/-- The host replaces KeypadState wholesale (10_state.md R41). -/
def State.replaceKeypad (s : State) (snapshot : Vector Bool 16) : State := { s with K := snapshot }

/-- The whole grid as the host reads it, row by row (10_state.md R40); no side effect. -/
def State.gridOutput (s : State) : Grid := s.P

/-- The fault record as the host observes it, its code as a number (10_state.md R45, 60_exceptions.md R170, R176). -/
def State.faultOutput (s : State) : Option FaultReport := s.F.map FaultRecord.report

/-- The step of the agent whose turn it is (20_memory.md R60; 10_state.md R48 for the shutdown). -/
def turnStep (t : Turn) (s : State) : Host.Outcome State Fault Refusal :=
  match t with
  | .engine => engineStep s
  | .tick => .next s.tick
  | .keypad snapshot => .next (s.replaceKeypad snapshot)
  | .readGrid => .next s
  | .editThrottle => .next s
  | .shutdown => .refused .hostShutdown

/-- Whose turn it is: the head of the agenda, the engine when it is empty (log 2). -/
def State.nextTurn (s : State) : Turn := s.agenda.headD .engine

/-- The state with one more turn put behind those still to come: what an outside that keeps the agents moving does
between two steps (20_memory.md R60; log 2). -/
def State.offer (s : State) (t : Turn) : State := { s with agenda := s.agenda ++ [t] }

/-- The state with that turn taken off the agenda. -/
def State.takeTurn (s : State) : State := { s with agenda := s.agenda.tail }

end Sys2Proof.Machine
end

