-- ==== Sys2Proof/Machine/Launch.lean ====
section
/-! DEFINITION. Reset as the construction of the engine with a loaded program (70_reset_and_hazards.md R190, R191). -/

namespace Sys2Proof.Machine

/-- The loader's duties (R191): the program fits below 4096 and does not cover the font.
DESIGN CHOICE: an odd number of bytes is accepted, which R191 leaves open; a fetch at the last byte pairs it with
the initial byte after it (log 15). -/
def programFits (loadAddr len : Nat) : Bool :=
  decide (loadAddr + len ≤ 4096) && (decide (len = 0) || decide (0x09F < loadAddr) || decide (loadAddr + len ≤ 0x050))

/-- AddressSpace at launch: the launch argument's bytes (D9), the font over them, the program over both (R190 steps 2 to 4). -/
def launchMemory (cfg : Config) (initial program : List Byte) : Memory :=
  Memory.writeBytes (Memory.writeBytes (Memory.writeBytes [] 0 (initial.take 4096)) 0x050 cfg.font) cfg.loadAddr.toNat program

/-- Reset (R190, 10_state.md R47): every parameter the spec leaves open is an argument: the configuration, I,
the initial bytes, the program, and the order of the other agents' steps. None when the loader must reject the
program or FONT has not its shape (R44, R8): such a launch is outside the spec. -/
def State.launch (cfg : Config) (i0 : Addr) (initial program : List Byte) (agenda : List Turn) : Option State :=
  if cfg.wf ∧ programFits cfg.loadAddr.toNat program.length then
    some { State.reset with
      I := i0, pc := cfg.loadAddr.setWidth 16, M := launchMemory cfg initial program, cfg := cfg, agenda := agenda }
  else none

end Sys2Proof.Machine
end

