-- ==== Sys2Proof/Machine/Step.lean ====
section
/-! DEFINITION. One step of the machine: the step of the agent whose turn it is (20_memory.md R60). -/

namespace Sys2Proof.Machine

/-- The next agent of the total order of R60 takes its turn. -/
def step (s : State) : Host.Outcome State Fault Refusal := turnStep s.nextTurn s.takeTurn

/-- The state with a table row's word where the next step fetches its instruction. -/
def State.withFetchWord (s : State) (nbits w : Nat) : State := s.placeWord (tableWord nbits w)

end Sys2Proof.Machine
end

