-- ==== Sys2Proof/Safety.lean ====
section
/-! DEFINITION. What counts as a safe run, the end of a run, the machine's invariant, endless runs and tick fairness. -/

namespace Sys2Proof.Machine

/-- No fault so far. A faulted state is a failure, never a successful end (60_exceptions.md R176). -/
def State.Safe (s : State) : Prop := s.F = none

/-- The end of a run (70_reset_and_hazards.md R198): about to fetch, at END_ADDR, the self-jump there. The engine keeps stepping. -/
def State.AtEnd (s : State) (endAddr : Addr) : Prop :=
  s.F = none ∧ s.pc = zextAddr endAddr ∧ s.fetch = some (encode (.jp endAddr))

/-- The shape of a fault record (60_exceptions.md R170): no word for a failed fetch, an address above 0xFFF for a data fault only. -/
def FaultRecord.Shaped (f : FaultRecord) : Prop :=
  match f.code with
  | .addressOutOfRangeFetch => f.word = none ∧ f.addr = none ∧ 0xFFF ≤ f.ia.toNat
  | .addressOutOfRangeData => f.word.isSome ∧ ∃ a, f.addr = some a ∧ 0xFFF < a
  | _ => f.word.isSome ∧ f.addr = none

/-- What holds of every state a run reaches: memory in canonical form; pc at most 0x10FE and every return address at most
0x1000 (10_state.md R25); the stack within its bound if it has one (R46); the fault record shaped as R170 says. -/
structure State.Inv (s : State) : Prop where
  memory : s.M.wf
  pc : s.pc.toNat ≤ 0x10FE
  stack : ∀ a ∈ s.S, a.toNat ≤ 0x1000
  depth : ∀ k, s.cfg.stackLimit = some k → s.S.length ≤ k
  fault : ∀ f, s.F = some f → f.Shaped

/-- A state some run reaches: a launch with any configuration, initial bytes, program and order of the agents' steps,
then any number of steps. -/
inductive Reachable : State → Prop where
  | launch {cfg i0 initial program agenda s} :
      State.launch cfg i0 initial program agenda = some s → Reachable s
  | step {s t} : Reachable s → Machine.step s = .next t → Reachable t

/-- An endless run of `step`: turn n of the total order of 20_memory.md R60 is `order n`, offered from outside just
before step n, and leads from `state n` to `state (n + 1)`. Every interleaving of the agents is some `order` (log 2). -/
structure Run (order : Nat → Turn) (state : Nat → State) : Prop where
  start : (state 0).agenda = []
  next : ∀ n, Machine.step ((state n).offer (order n)) = .next (state (n + 1))

/-- The tick fairness of 70_reset_and_hazards.md R195, which a claim about a run may name as a premise (D11): ticks happen
infinitely often. No other agent is assumed fair, the host's keys least of all. -/
def FairTicks (order : Nat → Turn) : Prop := ∀ n, ∃ m, n ≤ m ∧ order m = .tick

end Sys2Proof.Machine
end

