-- ==== Sys2Proof/Certificates/Slice0/Obligations.lean ====
section
/-! DEFINITION. The statements for the provers. Each docstring names the rule of spec/ it comes from, and the spec's own
decision (D<n>) or the log entry it rests on where it rests on one. -/

namespace Sys2Proof.Machine

/-- A part of the spec's state an instruction may write, pc apart. -/
inductive Part where
  | reg (r : Nibble)
  | index
  | stack
  | delay
  | sound
  | grid
  /-- the `n` bytes from address `a` -/
  | bytes (a n : Nat)
  | fault
deriving DecidableEq, Repr

/-- The frame: everything outside the listed parts is as before, memory read byte by byte. pc may change.
K and the configuration are never written by an instruction (10_state.md R30, R35). -/
structure OnlyWrites (s t : State) (parts : List Part) : Prop where
  regs : ∀ r, .reg r ∉ parts → t.reg r = s.reg r
  index : .index ∉ parts → t.I = s.I
  stack : .stack ∉ parts → t.S = s.S
  delay : .delay ∉ parts → t.DT = s.DT
  sound : .sound ∉ parts → t.ST = s.ST
  grid : .grid ∉ parts → ∀ r c, t.P.pixel r c = s.P.pixel r c
  bytes : ∀ b, (∀ a n, .bytes a n ∈ parts → ¬ (a ≤ b ∧ b < a + n)) → t.M.read b = s.M.read b
  fault : .fault ∉ parts → t.F = s.F
  keys : t.K = s.K
  config : t.cfg = s.cfg

/-- The encoding clause of a rule: every word that matches the row decodes to its instruction (30_encoding.md R74). -/
def RowDecodes (pattern mask : Word) (instr : Word → Instr) : Prop :=
  ∀ w : Word, w &&& mask = pattern → decode w = .ok (instr w)

/-- The words 30_encoding.md R76 lists as illegal. -/
def illegalWord (w : Word) : Bool :=
  (w.op == 0x5 && w.n != 0x0) || (w.op == 0x9 && w.n != 0x0) ||
  (w.op == 0x8 && [0x8, 0x9, 0xA, 0xB, 0xC, 0xD, 0xF].contains w.n) ||
  (w.op == 0xE && !([0x9E, 0xA1].contains w.nn)) ||
  (w.op == 0xF && !([0x07, 0x0A, 0x15, 0x18, 0x1E, 0x29, 0x33, 0x55, 0x65].contains w.nn))

/-- The fault of an engine step, from the words and conditions of 60_exceptions.md R170 to R174 in the order of R177. -/
def specFault (s : State) : Option FaultRecord :=
  let ia := s.pc.toNat
  if ia + 1 > 0xFFF then some ⟨.addressOutOfRangeFetch, s.pc, none, none⟩
  else
    let w : Word := s.M.read ia ++ s.M.read (ia + 1)
    let data (hi : Nat) : Option FaultRecord :=
      if hi > 0xFFF then some ⟨.addressOutOfRangeData, s.pc, some w, some hi⟩ else none
    if w = 0x00E0#16 then none
    else if w = 0x00EE#16 then if s.S = [] then some ⟨.stackUnderflow, s.pc, some w, none⟩ else none
    else if w &&& 0xF000#16 = 0x0000#16 then some ⟨.legacyMachineCode, s.pc, some w, none⟩
    else if w &&& 0xF000#16 = 0x2000#16 then
      if s.cfg.stackLimit = some s.S.length then some ⟨.stackOverflow, s.pc, some w, none⟩ else none
    else if w &&& 0xF000#16 = 0xD000#16 then
      if w.n = 0x0#4 then none else data (s.I.toNat + w.n.toNat - 1)
    else if w &&& 0xF0FF#16 = 0xF033#16 then data (s.I.toNat + 2)
    else if w &&& 0xF0FF#16 = 0xF055#16 ∨ w &&& 0xF0FF#16 = 0xF065#16 then data (s.I.toNat + w.x.toNat)
    else if illegalWord w then some ⟨.unknownInstruction, s.pc, some w, none⟩
    else none

/-- The registers an instruction may write, by 10_state.md R21 and R22. -/
def mayWriteReg (i : Instr) (r : Nibble) : Prop :=
  match i with
  | .ldImm x _ | .addImm x _ | .ldReg x _ | .rnd x _ | .ldVxDT x | .ldVxK x => r = x
  | .orReg x _ | .andReg x _ | .xorReg x _ | .addReg x _ | .subReg x _ | .shrReg x _ | .subnReg x _ | .shlReg x _ =>
    r = x ∨ r = 0xF#4
  | .drw _ _ _ | .addI _ => r = 0xF#4
  | .loadRegs x => r.toNat ≤ x.toNat
  | .cls | .ret | .sys _ | .jp _ | .call _ | .seImm _ _ | .sneImm _ _ | .seReg _ _ | .sneReg _ _ | .ldI _ | .jpV0 _
  | .skp _ | .sknp _ | .ldDTVx _ | .ldSTVx _ | .ldF _ | .ldB _ | .storeRegs _ => False

/-- The instructions after which pc is not simply `ia + 2` (10_state.md R24). -/
def movesPc (i : Instr) : Prop :=
  match i with
  | .ret | .sys _ | .jp _ | .call _ | .jpV0 _ | .seImm _ _ | .sneImm _ _ | .seReg _ _ | .sneReg _ _ | .skp _ | .sknp _
  | .ldVxK _ => True
  | .cls | .ldImm _ _ | .addImm _ _ | .ldReg _ _ | .orReg _ _ | .andReg _ _ | .xorReg _ _ | .addReg _ _ | .subReg _ _
  | .shrReg _ _ | .subnReg _ _ | .shlReg _ _ | .ldI _ | .rnd _ _ | .drw _ _ _ | .ldVxDT _ | .ldDTVx _ | .ldSTVx _
  | .addI _ | .ldF _ | .ldB _ | .storeRegs _ | .loadRegs _ => False

/-- Whether Dxyn's sprite has a set bit on pixel (r, c): bit `7 - (c - x0)` of the byte at `I + (r - y0)`, with
`x0 = V[x] mod 64` and `y0 = V[y] mod 32` (40_display.md R102). -/
def spriteOn (s : State) (x y n : Nibble) (r c : Nat) : Prop :=
  let x0 := (s.reg x).toNat % 64
  let y0 := (s.reg y).toNat % 32
  y0 ≤ r ∧ r < y0 + n.toNat ∧ x0 ≤ c ∧ c < x0 + 8 ∧
    (s.M.read (s.dataAddr (r - y0))).getLsbD (7 - (c - x0)) = true

/-- Dxyn raises no fault: it draws no row, or its last row's address is at most 0xFFF (60_exceptions.md R174). -/
def SpriteInRange (s : State) (n : Nibble) : Prop := n.toNat = 0 ∨ s.dataAddr (n.toNat - 1) ≤ 0xFFF

/-- A byte of the program would be loaded into 0x050 to 0x09F (70_reset_and_hazards.md R191). -/
def CoversFont (cfg : Config) (program : List Byte) : Prop :=
  ∃ k, k < program.length ∧ 0x050 ≤ cfg.loadAddr.toNat + k ∧ cfg.loadAddr.toNat + k ≤ 0x09F

/-- What a data fault leaves: nothing changed but the record, which gives the highest address (60_exceptions.md R174, R175). -/
def DataFault (s t : State) (i : Instr) (hi : Nat) : Prop :=
  t = { s with F := some ⟨.addressOutOfRangeData, s.pc, some (encode i), some hi⟩ }

end Sys2Proof.Machine

open Sys2Proof Sys2Proof.Machine

/-! ## Encoding -/

/-- Words written out from 30_encoding.md R74 and 95_test_vectors.md decode to the instructions they stand for; 0x5121 matches
no row and is rejected (R76; that fixed low nibbles are checked is the spec's own decision D14; log 10). -/
def Obligations.SpecWordsDecode : Prop :=
  decode 0x00E0#16 = .ok .cls ∧ decode 0x00EE#16 = .ok .ret ∧ decode 0x0123#16 = .ok (.sys 0x123#12) ∧
  decode 0x1234#16 = .ok (.jp 0x234#12) ∧ decode 0x8124#16 = .ok (.addReg 0x1#4 0x2#4) ∧
  decode 0xD01F#16 = .ok (.drw 0x0#4 0x1#4 0xF#4) ∧ decode 0xE29E#16 = .ok (.skp 0x2#4) ∧
  decode 0xF355#16 = .ok (.storeRegs 0x3#4) ∧ decode 0x5121#16 = .error (.unknownInstruction 0x5121#16) ∧
  decodeBytes [0x12#8, 0x34#8] = .ok (.jp 0x234#12, [])

/-- Decode and encode agree on every well-formed instruction, as words and as bytes followed by anything (R70, R71, R74). -/
def Obligations.DecodeOfEncode : Prop :=
  ∀ (i : Instr) (rest : List Byte), i.wellFormed = true →
    decode (encode i) = .ok i ∧ decodeBytes (encodeBytes i ++ rest) = .ok (i, rest)

/-- Every word the decoder accepts is the encoding of the well-formed instruction it reads (R70, R74, R81). -/
def Obligations.EncodeOfDecode : Prop :=
  ∀ (w : Word) (i : Instr), decode w = .ok i → i.wellFormed = true ∧ encode i = w

/-- R74: rows 1 and 2 come before row 3, and "apart from that precedence, no two rows match the same word". -/
def Obligations.RowsOverlapOnlyOnSys : Prop :=
  ∀ (w : Word) (j k : Nat) (a b : Row), j < k → opcodeTable[j]? = some a → opcodeTable[k]? = some b →
    a.selects w = true → b.selects w = true → j ≤ 1 ∧ k = 2

/-- R76: the words with no instruction are exactly the five classes it lists (D14). -/
def Obligations.IllegalWordsExactly : Prop :=
  ∀ w : Word,
    (illegalWord w = true → decode w = .error (.unknownInstruction w)) ∧
    (illegalWord w = false → ∃ i, decode w = .ok i)

/-! ## The step -/

/-- When the bytes at pc decode to an instruction, the engine's turn is that instruction's exec, at the state with the turn
taken off the agenda (the agenda is the model's own, log 2); with no agenda it is exec at the state itself. -/
def Obligations.StepRunsDecodedInstruction : Prop :=
  ∀ (s : State) (i : Instr), s.F = none → s.nextTurn = .engine → s.pc.toNat + 1 ≤ 0xFFF →
    decodeBytes [s.M.read s.pc.toNat, s.M.read (s.pc.toNat + 1)] = .ok (i, []) →
    step s = exec i s.takeTurn ∧ (s.agenda = [] → step s = exec i s)

/-- 20_memory.md R53: the byte at the lower address is bits [15:8]; a 1-byte store changes bits [15:8] of the word at `ia`
when its address is `ia`, and bits [7:0] when it is `ia + 1`. -/
def Obligations.FetchIsBigEndian : Prop :=
  ∀ s : State, s.pc.toNat + 1 ≤ 0xFFF →
    (∃ w, s.fetch = some w ∧ w.extractLsb' 8 8 = s.M.read s.pc.toNat ∧ w.extractLsb' 0 8 = s.M.read (s.pc.toNat + 1)) ∧
    ∀ (a : Nat) (v : Byte), ∃ w u, s.fetch = some w ∧ { s with M := s.M.write a v }.fetch = some u ∧
      u.extractLsb' 8 8 = (if a = s.pc.toNat then v else w.extractLsb' 8 8) ∧
      u.extractLsb' 0 8 = (if a = s.pc.toNat + 1 then v else w.extractLsb' 0 8)

/-- An engine turn of a machine that is not halted always has a next state, and that state's fault record is exactly the one
60_exceptions.md R170 to R177 give the fetched word (the codes and the record are the spec's decision D5; log 1). -/
def Obligations.FaultsExactlyAsListed : Prop :=
  ∀ s : State, s.F = none → s.nextTurn = .engine → ∃ t, step s = .next t ∧ t.F = specFault s

/-- R175: a step that raises a fault changes nothing but F (D5; the agenda entry taken is the model's own, log 2). -/
def Obligations.FaultsArePrecise : Prop :=
  ∀ (s t : State) (f : FaultRecord), s.F = none → s.nextTurn = .engine → step s = .next t → t.F = some f →
    t = { s with F := some f, agenda := s.agenda.tail }

/-- R39, R176: after a fault the engine has no step, F is never cleared, and the steps of the other agents change only DT, ST
and K; a tick still happens (R168; D5, log 1). -/
def Obligations.HaltIsFinal : Prop :=
  ∀ (s : State) (f : FaultRecord), s.F = some f →
    (s.nextTurn = .engine → step s = .fault (.engineHalted f)) ∧
    (s.nextTurn = .tick → ∃ t, step s = .next t) ∧
    ∀ t, step s = .next t →
      t.F = some f ∧ t.V = s.V ∧ t.I = s.I ∧ t.pc = s.pc ∧ t.S = s.S ∧ t.P = s.P ∧ t.M = s.M ∧ t.cfg = s.cfg

/-- R168, R60: a tick takes one from each counter that is not zero and changes nothing else (D11, D31; log 2 for the turn). -/
def Obligations.TickDecrementsBoth : Prop :=
  ∀ s : State, s.nextTurn = .tick → ∃ t, step s = .next t ∧
    t.DT.toNat = s.DT.toNat - 1 ∧ t.ST.toNat = s.ST.toNat - 1 ∧
    t = { s with DT := t.DT, ST := t.ST, agenda := s.agenda.tail }

/-- R41, R60(c): the host replaces the whole keypad and nothing else (D10; log 2 for the turn). -/
def Obligations.KeypadReplacedWhole : Prop :=
  ∀ (s : State) (k : Vector Bool 16), s.nextTurn = .keypad k →
    step s = .next { s with K := k, agenda := s.agenda.tail }

/-- R167: no step raises a timer except Fx15 for DT and Fx18 for ST, and each step that is not theirs lowers it by at most 1
(a rule the spec derives from R165, R166, R168). -/
def Obligations.TimersFallByAtMostOne : Prop :=
  ∀ s t : State, step s = .next t →
    ((t.DT.toNat ≤ s.DT.toNat ∧ s.DT.toNat ≤ t.DT.toNat + 1) ∨
      ∃ w x, s.nextTurn = .engine ∧ s.fetch = some w ∧ decode w = .ok (.ldDTVx x) ∧ t.DT = s.reg x) ∧
    ((t.ST.toNat ≤ s.ST.toNat ∧ s.ST.toNat ≤ t.ST.toNat + 1) ∨
      ∃ w x, s.nextTurn = .engine ∧ s.fetch = some w ∧ decode w = .ok (.ldSTVx x) ∧ t.ST = s.reg x)

/-- R62: an Fx15 and a tick pending together end in `V[x]` (tick first) or `V[x] - 1` when V[x] > 0 (Fx15 first);
no decrement is lost (the order is the agenda's, log 2). -/
def Obligations.TimerWriteRacesTick : Prop :=
  ∀ (s : State) (x : Nibble) (w : Word), s.F = none → s.fetch = some w → decode w = .ok (.ldDTVx x) →
    (s.agenda = [.tick, .engine] → ∃ t u, step s = .next t ∧ step t = .next u ∧ u.DT = s.reg x) ∧
    (s.agenda = [.engine, .tick] → ∃ t u, step s = .next t ∧ step t = .next u ∧ u.DT.toNat = (s.reg x).toNat - 1)

/-- R198: at the end of a run the self-jump runs for ever and changes nothing, for any number of engine steps
(D29: END_ADDR is the spec's definition; no tick or keypad turn is on the agenda, log 2). -/
def Obligations.SelfJumpRunsForever : Prop :=
  ∀ (s : State) (endAddr : Addr) (k : Nat), s.AtEnd endAddr → s.agenda = [] →
    Host.Core.run Sys2Proof.core k s = .next s

/-! ## Invariants and whole-machine rules -/

/-- Every step keeps the invariant: canonical memory; pc at most 0x10FE and return addresses at most 0x1000 (R25); the stack
within its bound (R46); the fault record as R170 shapes it. -/
def Obligations.StepKeepsInvariant : Prop := ∀ s t : State, s.Inv → step s = .next t → t.Inv

/-- The invariant holds after reset. -/
def Obligations.ResetMeetsInvariant : Prop := State.reset.Inv

/-- The invariant holds of every launch: any configuration, I, initial bytes, program and order of steps (R190, R47). -/
def Obligations.EveryLaunchMeetsInvariant : Prop :=
  ∀ (cfg : Config) (i0 : Addr) (initial program : List Byte) (agenda : List Turn) (s : State),
    State.launch cfg i0 initial program agenda = some s → s.Inv

/-- R47: the values after reset that the spec names (S and K are its decisions D8, D10). -/
def Obligations.ResetValues : Prop :=
  (∀ r, State.reset.reg r = 0x00#8) ∧ State.reset.pc = 0x200#16 ∧ State.reset.S = [] ∧ State.reset.DT = 0x00#8 ∧
  State.reset.ST = 0x00#8 ∧ (∀ r c, State.reset.P.pixel r c = false) ∧ (∀ k, State.reset.keyDown k = false) ∧
  State.reset.F = none ∧ State.reset.cfg.loadAddr = 0x200#12 ∧ State.reset.cfg.stackLimit = none

/-- R44, R191, R47: a program that does not fit or covers the font has no launch (log 8); any other, above the font or below it,
is at LOAD_ADDR, with FONT at 0x050 and pc at LOAD_ADDR. I and the other initial bytes are launch arguments (D8, D9), LOAD_ADDR
and FONT parameters (D22, D24), FONT of its shape (R8). That a program of an odd number of bytes launches too is the model's
own choice (log 15). -/
def Obligations.LaunchLoadsProgramAndFont : Prop :=
  ∀ (cfg : Config) (i0 : Addr) (initial program : List Byte) (agenda : List Turn), cfg.wf →
    (cfg.loadAddr.toNat + program.length > 4096 → State.launch cfg i0 initial program agenda = none) ∧
    (CoversFont cfg program → State.launch cfg i0 initial program agenda = none) ∧
    (¬ CoversFont cfg program → cfg.loadAddr.toNat + program.length ≤ 4096 →
      ∃ s, State.launch cfg i0 initial program agenda = some s ∧ s.pc.toNat = cfg.loadAddr.toNat ∧ s.I = i0 ∧
        (∀ k, k < program.length → some (s.M.read (cfg.loadAddr.toNat + k)) = program[k]?) ∧
        (∀ k, k < 80 → some (s.M.read (0x050 + k)) = cfg.font[k]?))

/-- R35: no step writes the configuration. R60: only the host writes K. -/
def Obligations.OnlyHostWritesKeys : Prop :=
  ∀ s t : State, step s = .next t → t.cfg = s.cfg ∧ (t.K = s.K ∨ s.nextTurn = .keypad t.K)

/-- Which instructions write which state: S (R28), P (R31), M (R51), DT and ST (R29), I (R27, C10), K never (R30), and no
other; the draw counter and the agenda are the model's own (logs 3, 2). -/
def Obligations.OnlyNamedInstructionsWrite : Prop :=
  ∀ (i : Instr) (s t : State), exec i s = .next t →
    (t.S ≠ s.S → i = .ret ∨ ∃ a, i = .call a) ∧
    (t.P ≠ s.P → i = .cls ∨ ∃ x y n, i = .drw x y n) ∧
    (t.M ≠ s.M → (∃ x, i = .ldB x) ∨ ∃ x, i = .storeRegs x) ∧
    (t.DT ≠ s.DT → ∃ x, i = .ldDTVx x) ∧
    (t.ST ≠ s.ST → ∃ x, i = .ldSTVx x) ∧
    (t.I ≠ s.I → (∃ a, i = .ldI a) ∨ (∃ x, i = .addI x) ∨ (∃ x, i = .ldF x) ∨
      (s.cfg.qIndexInc = true ∧ ((∃ x, i = .storeRegs x) ∨ ∃ x, i = .loadRegs x))) ∧
    t.K = s.K ∧ t.cfg = s.cfg ∧ t.agenda = s.agenda ∧ (t.draws ≠ s.draws → ∃ x nn, i = .rnd x nn)

/-- R21, R22: which registers each instruction may write, VF among them; every other register is unchanged. -/
def Obligations.RegistersWrittenAreTheListed : Prop :=
  ∀ (i : Instr) (s t : State) (r : Nibble), exec i s = .next t → t.reg r ≠ s.reg r → mayWriteReg i r

/-- R24: an instruction that is no jump, call, return, skip or key wait leaves pc at `ia + 2` unless it raises a fault
(D3; a fault keeps pc at `ia`, D5). -/
def Obligations.OtherInstructionsAdvancePc : Prop :=
  ∀ (i : Instr) (s t : State), s.F = none → exec i s = .next t → ¬ movesPc i →
    t.pc = if t.F = none then s.pc + 2 else s.pc

/-- Each memory byte an instruction may change: the three of Fx33 and the x + 1 of Fx55, at `I`, and no other (R51). -/
def Obligations.StoresStayInTheirBytes : Prop :=
  ∀ (i : Instr) (s t : State) (b : Nat), exec i s = .next t → t.M.read b ≠ s.M.read b →
    ∃ n, ((∃ x, i = .ldB x ∧ n = 3) ∨ ∃ x, i = .storeRegs x ∧ n = x.toNat + 1) ∧
      s.dataAddr 0 ≤ b ∧ b < s.dataAddr n ∧ b ≤ 0xFFF

/-! ## Display -/

/-- R100, whole: CLS clears all pixels; nothing else changes; pc is `ia + 2`. -/
def Obligations.ClsClearsGrid : Prop :=
  RowDecodes 0x00E0#16 0xFFFF#16 (fun _ => .cls) ∧
  ∀ s : State, ∃ t, exec .cls s = .next t ∧ (∀ r c, r < 32 → c < 64 → t.P.pixel r c = false) ∧
    t.pc = s.pc + 2 ∧ OnlyWrites s t [.grid]

/-- R102: a drawn sprite XORs each pixel it has a set bit on, start wrapped and edges clipped; VF is 1 exactly when one of
those pixels was on, also when x or y is VF (VF last: D2; all rows checked: D4, D13; n = 0 draws nothing: D13). -/
def Obligations.DrwXorsSprite : Prop :=
  RowDecodes 0xD000#16 0xF000#16 (fun w => .drw (w.extractLsb' 8 4) (w.extractLsb' 4 4) (w.extractLsb' 0 4)) ∧
  ∀ (s : State) (x y n : Nibble), SpriteInRange s n → ∃ t, exec (.drw x y n) s = .next t ∧
    (∀ r c, r < 32 → c < 64 →
      (t.P.pixel r c = true ↔ (s.P.pixel r c = true ↔ ¬ spriteOn s x y n r c))) ∧
    (t.reg 0xF#4 = 0x01#8 ∨ t.reg 0xF#4 = 0x00#8) ∧
    (t.reg 0xF#4 = 0x01#8 ↔ ∃ r c, r < 32 ∧ c < 64 ∧ s.P.pixel r c = true ∧ spriteOn s x y n r c) ∧
    t.pc = s.pc + 2 ∧ OnlyWrites s t [.grid, .reg 0xF#4]

/-- R103: drawing the same sprite at the same place a second time, with the same bytes, restores the grid; if every covered
pixel was off, the first draw sets VF to 0 and the second to 1 exactly when the sprite has an in-bounds set bit
(a rule the spec derives from R100 to R102). -/
def Obligations.DrawingTwiceRestoresGrid : Prop :=
  ∀ (s t u : State) (x y n x' y' : Nibble), SpriteInRange s n → exec (.drw x y n) s = .next t →
    u.P = t.P → u.I = s.I → (∀ k, k < n.toNat → u.M.read (s.dataAddr k) = s.M.read (s.dataAddr k)) →
    (u.reg x').toNat % 64 = (s.reg x).toNat % 64 → (u.reg y').toNat % 32 = (s.reg y).toNat % 32 →
    ∃ v, exec (.drw x' y' n) u = .next v ∧ v.P = s.P ∧
      ((∀ r c, r < 32 → c < 64 → spriteOn s x y n r c → s.P.pixel r c = false) →
        t.reg 0xF#4 = 0x00#8 ∧ (v.reg 0xF#4 = 0x01#8 ↔ ∃ r c, r < 32 ∧ c < 64 ∧ spriteOn s x y n r c))

/-- R174: Dxyn, Fx33, Fx55 and Fx65 whose highest address is above 0xFFF change nothing but the record (D4, D5, D13; log 1). -/
def Obligations.DataFaultsChangeNothing : Prop :=
  ∀ (s : State) (x y n : Nibble),
    (n.toNat ≠ 0 → s.dataAddr (n.toNat - 1) > 0xFFF →
      ∃ t, exec (.drw x y n) s = .next t ∧ DataFault s t (.drw x y n) (s.dataAddr (n.toNat - 1))) ∧
    (s.dataAddr 2 > 0xFFF → ∃ t, exec (.ldB x) s = .next t ∧ DataFault s t (.ldB x) (s.dataAddr 2)) ∧
    (s.dataAddr x.toNat > 0xFFF → ∃ t, exec (.storeRegs x) s = .next t ∧
      DataFault s t (.storeRegs x) (s.dataAddr x.toNat)) ∧
    (s.dataAddr x.toNat > 0xFFF → ∃ t, exec (.loadRegs x) s = .next t ∧
      DataFault s t (.loadRegs x) (s.dataAddr x.toNat))

/-! ## Control transfer -/

/-- R112: JP sets pc to nnn, odd or not; a target of 0xFFF cannot be fetched (the bounds check is the spec's decision D4, and
the fault that fetch raises is what FaultsExactlyAsListed states); nothing else changes. -/
def Obligations.JpSetsPc : Prop :=
  RowDecodes 0x1000#16 0xF000#16 (fun w => .jp (w.extractLsb' 0 12)) ∧
  ∀ (s : State) (nnn : Addr), ∃ t, exec (.jp nnn) s = .next t ∧ t.pc.toNat = nnn.toNat ∧
    (nnn = 0xFFF#12 → t.fetch = none) ∧ OnlyWrites s t []

/-- R113: CALL pushes `ia + 2` and jumps, unless a configured bound is reached, when it raises StackOverflow and changes
nothing else (D16, D5; log 1). -/
def Obligations.CallPushesReturnAddress : Prop :=
  RowDecodes 0x2000#16 0xF000#16 (fun w => .call (w.extractLsb' 0 12)) ∧
  ∀ (s : State) (nnn : Addr),
    (s.cfg.stackLimit ≠ some s.S.length → ∃ t, exec (.call nnn) s = .next t ∧ t.S = (s.pc + 2) :: s.S ∧
      t.pc.toNat = nnn.toNat ∧ OnlyWrites s t [.stack]) ∧
    (s.cfg.stackLimit = some s.S.length →
      exec (.call nnn) s = .next { s with F := some ⟨.stackOverflow, s.pc, some (encode (.call nnn)), none⟩ })

/-- R110: RET pops pc; on an empty stack it raises StackUnderflow and changes nothing else (the record: D5; log 1). -/
def Obligations.RetPopsPc : Prop :=
  RowDecodes 0x00EE#16 0xFFFF#16 (fun _ => .ret) ∧
  ∀ s : State,
    (∀ a rest, s.S = a :: rest → ∃ t, exec .ret s = .next t ∧ t.pc = a ∧ t.S = rest ∧ OnlyWrites s t [.stack]) ∧
    (s.S = [] → exec .ret s = .next { s with F := some ⟨.stackUnderflow, s.pc, some 0x00EE#16, none⟩ })

/-- R110, R113: a CALL and, after anything that leaves the stack as the CALL did, a RET: execution resumes after the CALL
with the stack as before it. -/
def Obligations.RetResumesAfterCall : Prop :=
  ∀ (s t u : State) (nnn : Addr), s.cfg.stackLimit ≠ some s.S.length → exec (.call nnn) s = .next t → u.S = t.S →
    ∃ v, exec .ret u = .next v ∧ v.pc = s.pc + 2 ∧ v.S = s.S

/-- R111, R75: every other word of class 0 is SYS, whose only effect is the LegacyMachineCode fault with its word (D5; log 1). -/
def Obligations.SysRaisesLegacyFault : Prop :=
  ∀ w : Word, w &&& 0xF000#16 = 0x0000#16 → w ≠ 0x00E0#16 → w ≠ 0x00EE#16 →
    ∃ nnn, decode w = .ok (.sys nnn) ∧ ∀ s : State,
      exec (.sys nnn) s = .next { s with F := some ⟨.legacyMachineCode, s.pc, some w, none⟩ }

/-- R114, R115, whole: skip on equality and on inequality with nn. -/
def Obligations.SkipsOnImmediate : Prop :=
  RowDecodes 0x3000#16 0xF000#16 (fun w => .seImm (w.extractLsb' 8 4) (w.extractLsb' 0 8)) ∧
  RowDecodes 0x4000#16 0xF000#16 (fun w => .sneImm (w.extractLsb' 8 4) (w.extractLsb' 0 8)) ∧
  ∀ (s : State) (x : Nibble) (nn : Byte),
    (∃ t, exec (.seImm x nn) s = .next t ∧ t.pc = (if s.reg x = nn then s.pc + 4 else s.pc + 2) ∧ OnlyWrites s t []) ∧
    (∃ t, exec (.sneImm x nn) s = .next t ∧ t.pc = (if s.reg x = nn then s.pc + 2 else s.pc + 4) ∧ OnlyWrites s t [])

/-- R116, R117: skip on equal and on different registers; the low nibble of the word must be 0 (D14). -/
def Obligations.SkipsOnRegisters : Prop :=
  RowDecodes 0x5000#16 0xF00F#16 (fun w => .seReg (w.extractLsb' 8 4) (w.extractLsb' 4 4)) ∧
  RowDecodes 0x9000#16 0xF00F#16 (fun w => .sneReg (w.extractLsb' 8 4) (w.extractLsb' 4 4)) ∧
  ∀ (s : State) (x y : Nibble),
    (∃ t, exec (.seReg x y) s = .next t ∧ t.pc = (if s.reg x = s.reg y then s.pc + 4 else s.pc + 2) ∧
      OnlyWrites s t []) ∧
    (∃ t, exec (.sneReg x y) s = .next t ∧ t.pc = (if s.reg x = s.reg y then s.pc + 2 else s.pc + 4) ∧
      OnlyWrites s t [])

/-- R118: Bnnn jumps to nnn plus V0, or plus V[nnn[11:8]] with Q_JUMP_VX, never wrapped; a target above 0xFFE cannot be
fetched (D3, D4; C3). -/
def Obligations.JpV0AddsRegister : Prop :=
  RowDecodes 0xB000#16 0xF000#16 (fun w => .jpV0 (w.extractLsb' 0 12)) ∧
  ∀ (s : State) (nnn : Addr), ∃ t, exec (.jpV0 nnn) s = .next t ∧
    t.pc.toNat = nnn.toNat + (s.reg (if s.cfg.qJumpVx then nnn.extractLsb' 8 4 else 0x0#4)).toNat ∧
    (0xFFE < t.pc.toNat → t.fetch = none) ∧ OnlyWrites s t []

/-! ## Registers and arithmetic -/

/-- R130, R131, R132, whole: LD Vx, nn; ADD Vx, nn without a flag; LD Vx, Vy. -/
def Obligations.LoadsAndPlainAdd : Prop :=
  RowDecodes 0x6000#16 0xF000#16 (fun w => .ldImm (w.extractLsb' 8 4) (w.extractLsb' 0 8)) ∧
  RowDecodes 0x7000#16 0xF000#16 (fun w => .addImm (w.extractLsb' 8 4) (w.extractLsb' 0 8)) ∧
  RowDecodes 0x8000#16 0xF00F#16 (fun w => .ldReg (w.extractLsb' 8 4) (w.extractLsb' 4 4)) ∧
  ∀ (s : State) (x y : Nibble) (nn : Byte),
    (∃ t, exec (.ldImm x nn) s = .next t ∧ t.reg x = nn ∧ t.pc = s.pc + 2 ∧ OnlyWrites s t [.reg x]) ∧
    (∃ t, exec (.addImm x nn) s = .next t ∧ (t.reg x).toNat = ((s.reg x).toNat + nn.toNat) % 256 ∧
      t.pc = s.pc + 2 ∧ OnlyWrites s t [.reg x]) ∧
    (∃ t, exec (.ldReg x y) s = .next t ∧ t.reg x = s.reg y ∧ t.pc = s.pc + 2 ∧ OnlyWrites s t [.reg x])

/-- R133 to R135: OR, AND, XOR bit by bit, and VF <- 0, also when x = 0xF, whose result is lost (the flag last: D2). -/
def Obligations.LogicResetsFlag : Prop :=
  RowDecodes 0x8001#16 0xF00F#16 (fun w => .orReg (w.extractLsb' 8 4) (w.extractLsb' 4 4)) ∧
  RowDecodes 0x8002#16 0xF00F#16 (fun w => .andReg (w.extractLsb' 8 4) (w.extractLsb' 4 4)) ∧
  RowDecodes 0x8003#16 0xF00F#16 (fun w => .xorReg (w.extractLsb' 8 4) (w.extractLsb' 4 4)) ∧
  ∀ (s : State) (x y : Nibble),
    (∃ t, exec (.orReg x y) s = .next t ∧ t.reg 0xF#4 = 0x00#8 ∧
      (x ≠ 0xF#4 → ∀ k, (t.reg x).getLsbD k = ((s.reg x).getLsbD k || (s.reg y).getLsbD k)) ∧
      t.pc = s.pc + 2 ∧ OnlyWrites s t [.reg x, .reg 0xF#4]) ∧
    (∃ t, exec (.andReg x y) s = .next t ∧ t.reg 0xF#4 = 0x00#8 ∧
      (x ≠ 0xF#4 → ∀ k, (t.reg x).getLsbD k = ((s.reg x).getLsbD k && (s.reg y).getLsbD k)) ∧
      t.pc = s.pc + 2 ∧ OnlyWrites s t [.reg x, .reg 0xF#4]) ∧
    (∃ t, exec (.xorReg x y) s = .next t ∧ t.reg 0xF#4 = 0x00#8 ∧
      (x ≠ 0xF#4 → ∀ k, (t.reg x).getLsbD k = ((s.reg x).getLsbD k ^^ (s.reg y).getLsbD k)) ∧
      t.pc = s.pc + 2 ∧ OnlyWrites s t [.reg x, .reg 0xF#4])

/-- R136, R143: VF is the carry and, when x is not VF, `V[x]_new + 256 x VF_new = V[x]_old + V[y]_old`; with x = 0xF VF is
the carry and the sum is lost (D2). -/
def Obligations.AddCarryLaw : Prop :=
  RowDecodes 0x8004#16 0xF00F#16 (fun w => .addReg (w.extractLsb' 8 4) (w.extractLsb' 4 4)) ∧
  ∀ (s : State) (x y : Nibble), ∃ t, exec (.addReg x y) s = .next t ∧
    (t.reg 0xF#4).toNat = (if (s.reg x).toNat + (s.reg y).toNat > 255 then 1 else 0) ∧
    (x ≠ 0xF#4 → (t.reg x).toNat + 256 * (t.reg 0xF#4).toNat = (s.reg x).toNat + (s.reg y).toNat) ∧
    t.pc = s.pc + 2 ∧ OnlyWrites s t [.reg x, .reg 0xF#4]

/-- R137, R139, R144: VF is 1 exactly when there is no borrow, equal operands included (D32), and, when x is not VF,
`V[x]_new = a + 256 x (1 - VF_new) - b`, with a and b exchanged for SUBN; with x = 0xF the flag wins (D2). -/
def Obligations.SubtractBorrowLaw : Prop :=
  RowDecodes 0x8005#16 0xF00F#16 (fun w => .subReg (w.extractLsb' 8 4) (w.extractLsb' 4 4)) ∧
  RowDecodes 0x8007#16 0xF00F#16 (fun w => .subnReg (w.extractLsb' 8 4) (w.extractLsb' 4 4)) ∧
  ∀ (s : State) (x y : Nibble),
    (∃ t, exec (.subReg x y) s = .next t ∧
      (t.reg 0xF#4).toNat = (if (s.reg y).toNat ≤ (s.reg x).toNat then 1 else 0) ∧
      (x ≠ 0xF#4 → (t.reg x).toNat + (s.reg y).toNat = (s.reg x).toNat + 256 * (1 - (t.reg 0xF#4).toNat)) ∧
      t.pc = s.pc + 2 ∧ OnlyWrites s t [.reg x, .reg 0xF#4]) ∧
    (∃ t, exec (.subnReg x y) s = .next t ∧
      (t.reg 0xF#4).toNat = (if (s.reg x).toNat ≤ (s.reg y).toNat then 1 else 0) ∧
      (x ≠ 0xF#4 → (t.reg x).toNat + (s.reg x).toNat = (s.reg y).toNat + 256 * (1 - (t.reg 0xF#4).toNat)) ∧
      t.pc = s.pc + 2 ∧ OnlyWrites s t [.reg x, .reg 0xF#4])

/-- R138, R140, R145: a logical shift by one of V[y] with Q_SHIFT_Y, else of V[x]; VF is the bit shifted out of that value, and
wins when x = 0xF (D2; the quirk is OPEN, D20, and the statement holds for both values). -/
def Obligations.ShiftsByOne : Prop :=
  RowDecodes 0x8006#16 0xF00F#16 (fun w => .shrReg (w.extractLsb' 8 4) (w.extractLsb' 4 4)) ∧
  RowDecodes 0x800E#16 0xF00F#16 (fun w => .shlReg (w.extractLsb' 8 4) (w.extractLsb' 4 4)) ∧
  ∀ (s : State) (x y : Nibble) (src : Byte), src = (if s.cfg.qShiftY then s.reg y else s.reg x) →
    (∃ t, exec (.shrReg x y) s = .next t ∧ (t.reg 0xF#4).toNat = src.toNat % 2 ∧
      (x ≠ 0xF#4 → (t.reg x).toNat = src.toNat / 2) ∧ t.pc = s.pc + 2 ∧ OnlyWrites s t [.reg x, .reg 0xF#4]) ∧
    (∃ t, exec (.shlReg x y) s = .next t ∧ (t.reg 0xF#4).toNat = src.toNat / 128 ∧
      (x ≠ 0xF#4 → (t.reg x).toNat = src.toNat * 2 % 256) ∧ t.pc = s.pc + 2 ∧ OnlyWrites s t [.reg x, .reg 0xF#4])

/-- R141, R147: RND masks the draw's byte, bit by bit, and the next draw is another; it holds for every byte the source may
answer (the draw is the model's opaque free value and the counter its own field, log 3; D19). -/
def Obligations.RndMasksFreeByte : Prop :=
  RowDecodes 0xC000#16 0xF000#16 (fun w => .rnd (w.extractLsb' 8 4) (w.extractLsb' 0 8)) ∧
  ∀ (s : State) (x : Nibble) (nn : Byte), ∃ t, exec (.rnd x nn) s = .next t ∧
    (∀ k, nn.getLsbD k = false → (t.reg x).getLsbD k = false) ∧
    (∀ k, nn.getLsbD k = true → (t.reg x).getLsbD k = (Config.randomByte s.draws).getLsbD k) ∧
    t.draws = s.draws + 1 ∧ t.pc = s.pc + 2 ∧ OnlyWrites s t [.reg x]

/-! ## Index register and memory -/

/-- R150, whole: LD I, nnn. -/
def Obligations.LdISetsIndex : Prop :=
  RowDecodes 0xA000#16 0xF000#16 (fun w => .ldI (w.extractLsb' 0 12)) ∧
  ∀ (s : State) (nnn : Addr), ∃ t, exec (.ldI nnn) s = .next t ∧ t.I = nnn ∧ t.pc = s.pc + 2 ∧
    OnlyWrites s t [.index]

/-- R151: I + V[x] reduced modulo 4096; VF is 1 when the sum reaches 4096 and keeps its value otherwise (D6). -/
def Obligations.AddIWrapsAndFlags : Prop :=
  RowDecodes 0xF01E#16 0xF0FF#16 (fun w => .addI (w.extractLsb' 8 4)) ∧
  ∀ (s : State) (x : Nibble), ∃ t, exec (.addI x) s = .next t ∧
    t.I.toNat = (s.I.toNat + (s.reg x).toNat) % 4096 ∧
    t.reg 0xF#4 = (if s.I.toNat + (s.reg x).toNat ≥ 4096 then 0x01#8 else s.reg 0xF#4) ∧
    t.pc = s.pc + 2 ∧ OnlyWrites s t [.index, .reg 0xF#4]

/-- R152: LD F points I at glyph `V[x] mod 16`, always within 0x050 to 0x09B. -/
def Obligations.LdFPointsAtGlyph : Prop :=
  RowDecodes 0xF029#16 0xF0FF#16 (fun w => .ldF (w.extractLsb' 8 4)) ∧
  ∀ (s : State) (x : Nibble), ∃ t, exec (.ldF x) s = .next t ∧
    t.I.toNat = 0x050 + 5 * ((s.reg x).toNat % 16) ∧ t.I.toNat ≤ 0x09B ∧ t.pc = s.pc + 2 ∧ OnlyWrites s t [.index]

/-- R153: LD B stores the three decimal digits, each below 10 and together the value, at I, I + 1 and I + 2, when
I + 2 is in the address space (D4). -/
def Obligations.LdBStoresDigits : Prop :=
  RowDecodes 0xF033#16 0xF0FF#16 (fun w => .ldB (w.extractLsb' 8 4)) ∧
  ∀ (s : State) (x : Nibble), s.dataAddr 2 ≤ 0xFFF → ∃ t, exec (.ldB x) s = .next t ∧
    (t.M.read (s.dataAddr 0)).toNat = (s.reg x).toNat / 100 ∧
    (t.M.read (s.dataAddr 1)).toNat = (s.reg x).toNat / 10 % 10 ∧
    (t.M.read (s.dataAddr 2)).toNat = (s.reg x).toNat % 10 ∧
    t.pc = s.pc + 2 ∧ OnlyWrites s t [.bytes (s.dataAddr 0) 3]

/-- R154, R157: LD [I], Vx stores V0 to Vx at I to I + x, and I advances by x + 1 modulo 4096 with Q_INDEX_INC (D4, D7). -/
def Obligations.StoreRegsWritesMemory : Prop :=
  RowDecodes 0xF055#16 0xF0FF#16 (fun w => .storeRegs (w.extractLsb' 8 4)) ∧
  ∀ (s : State) (x : Nibble), s.dataAddr x.toNat ≤ 0xFFF → ∃ t, exec (.storeRegs x) s = .next t ∧
    (∀ k : Nibble, k.toNat ≤ x.toNat → t.M.read (s.dataAddr k.toNat) = s.reg k) ∧
    t.I.toNat = (if s.cfg.qIndexInc then (s.I.toNat + x.toNat + 1) % 4096 else s.I.toNat) ∧
    t.pc = s.pc + 2 ∧ OnlyWrites s t [.index, .bytes (s.dataAddr 0) (x.toNat + 1)]

/-- R155, R157: LD Vx, [I] loads V0 to Vx from I to I + x and no other register, and I advances as for the store (D4, D7). -/
def Obligations.LoadRegsReadsMemory : Prop :=
  RowDecodes 0xF065#16 0xF0FF#16 (fun w => .loadRegs (w.extractLsb' 8 4)) ∧
  ∀ (s : State) (x : Nibble), s.dataAddr x.toNat ≤ 0xFFF → ∃ t, exec (.loadRegs x) s = .next t ∧
    (∀ k : Nibble, t.reg k = if k.toNat ≤ x.toNat then s.M.read (s.dataAddr k.toNat) else s.reg k) ∧
    t.I.toNat = (if s.cfg.qIndexInc then (s.I.toNat + x.toNat + 1) % 4096 else s.I.toNat) ∧
    t.pc = s.pc + 2 ∧
    OnlyWrites s t (.index :: (List.range (x.toNat + 1)).map (fun k => .reg (BitVec.ofNat 4 k)))

/-- R156: Fx55, then anything that leaves those bytes alone and sets I back, then Fx65 with the same x: V0 to Vx hold the
values they had before the Fx55 (a rule the spec derives from R154, R155; C8). -/
def Obligations.StoreThenLoadRestores : Prop :=
  ∀ (s t u : State) (x : Nibble), s.dataAddr x.toNat ≤ 0xFFF → exec (.storeRegs x) s = .next t → u.I = s.I →
    (∀ k, k ≤ x.toNat → u.M.read (s.dataAddr k) = t.M.read (s.dataAddr k)) →
    ∃ v, exec (.loadRegs x) u = .next v ∧ ∀ k : Nibble, k.toNat ≤ x.toNat → v.reg k = s.reg k

/-- R65: a store over the next instruction's word is what the very next fetch reads, big-endian
(a rule the spec derives from R60 and R72). -/
def Obligations.NextFetchSeesStore : Prop :=
  ∀ (s : State) (x : Nibble), 1 ≤ x.toNat → s.dataAddr x.toNat ≤ 0xFFF → (s.pc + 2).toNat = s.dataAddr 0 →
    ∃ t, exec (.storeRegs x) s = .next t ∧ t.fetch = some (s.reg 0x0#4 ++ s.reg 0x1#4)

/-! ## Keypad and timers -/

/-- R160, R161, R162, whole: SKP and SKNP test key `V[x] mod 16` and change only pc. -/
def Obligations.SkipsOnKey : Prop :=
  RowDecodes 0xE09E#16 0xF0FF#16 (fun w => .skp (w.extractLsb' 8 4)) ∧
  RowDecodes 0xE0A1#16 0xF0FF#16 (fun w => .sknp (w.extractLsb' 8 4)) ∧
  ∀ (s : State) (x k : Nibble), k.toNat = (s.reg x).toNat % 16 →
    (∃ t, exec (.skp x) s = .next t ∧ t.pc = (if s.keyDown k then s.pc + 4 else s.pc + 2) ∧ OnlyWrites s t []) ∧
    (∃ t, exec (.sknp x) s = .next t ∧ t.pc = (if s.keyDown k then s.pc + 2 else s.pc + 4) ∧ OnlyWrites s t [])

/-- R163, R165: LD Vx, DT and LD DT, Vx. -/
def Obligations.DelayTimerReadAndSet : Prop :=
  RowDecodes 0xF007#16 0xF0FF#16 (fun w => .ldVxDT (w.extractLsb' 8 4)) ∧
  RowDecodes 0xF015#16 0xF0FF#16 (fun w => .ldDTVx (w.extractLsb' 8 4)) ∧
  ∀ (s : State) (x : Nibble),
    (∃ t, exec (.ldVxDT x) s = .next t ∧ t.reg x = s.DT ∧ t.pc = s.pc + 2 ∧ OnlyWrites s t [.reg x]) ∧
    (∃ t, exec (.ldDTVx x) s = .next t ∧ t.DT = s.reg x ∧ t.pc = s.pc + 2 ∧ OnlyWrites s t [.delay])

/-- R166, whole: LD ST, Vx; and no instruction reads ST back: with another ST, every instruction has the same outcome but for
ST, and LD ST, Vx the very same. -/
def Obligations.SoundTimerSetNeverRead : Prop :=
  RowDecodes 0xF018#16 0xF0FF#16 (fun w => .ldSTVx (w.extractLsb' 8 4)) ∧
  (∀ (s : State) (x : Nibble), ∃ t, exec (.ldSTVx x) s = .next t ∧ t.ST = s.reg x ∧ t.pc = s.pc + 2 ∧
    OnlyWrites s t [.sound]) ∧
  ∀ (i : Instr) (s t : State) (b : Byte), exec i s = .next t →
    exec i { s with ST := b } = .next { t with ST := if (∃ x, i = .ldSTVx x) then t.ST else b }

/-- R164: with a key down LD Vx, K takes the least one's number and goes on; with none pc stays at `ia` and nothing changes
(the key's level decides, not an edge: D21, C4). -/
def Obligations.KeyWaitTakesLeastKey : Prop :=
  RowDecodes 0xF00A#16 0xF0FF#16 (fun w => .ldVxK (w.extractLsb' 8 4)) ∧
  ∀ (s : State) (x : Nibble),
    (∀ k : Nibble, s.keyDown k = true → (∀ j : Nibble, j.toNat < k.toNat → s.keyDown j = false) →
      ∃ t, exec (.ldVxK x) s = .next t ∧ (t.reg x).toNat = k.toNat ∧ t.pc = s.pc + 2 ∧ OnlyWrites s t [.reg x]) ∧
    ((∀ k : Nibble, s.keyDown k = false) → exec (.ldVxK x) s = .next s)

/-! ## Fault codes and endless runs -/

/-- R170, R176: the host reads a record as its code's number, 1 to 6, with the recorded words, and reads nothing where there is
no fault (the numbers and the record are the spec's decision D5; log 1). -/
def Obligations.HostReadsNumberedFault : Prop :=
  ∀ s : State, (s.F = none → s.faultOutput = none) ∧
    ∀ f : FaultRecord, s.F = some f → ∃ r, s.faultOutput = some r ∧ r.ia = f.ia ∧ r.word = f.word ∧ r.addr = f.addr ∧
      (r.code = 1 ↔ f.code = .unknownInstruction) ∧ (r.code = 2 ↔ f.code = .legacyMachineCode) ∧
      (r.code = 3 ↔ f.code = .stackUnderflow) ∧ (r.code = 4 ↔ f.code = .addressOutOfRangeFetch) ∧
      (r.code = 5 ↔ f.code = .addressOutOfRangeData) ∧ (r.code = 6 ↔ f.code = .stackOverflow)

/-- R60: the first k turns of an endless run, put on the agenda at its start, are k steps of the machine to the very same state
(the agenda and the endless run are the model's form of the total order, D11, D12; log 2). -/
def Obligations.RunFollowsAgenda : Prop :=
  ∀ (order : Nat → Turn) (state : Nat → State), Run order state → ∀ k : Nat,
    Host.Core.run Sys2Proof.core k { state 0 with agenda := (List.range k).map order } = .next (state k)

/-- R195, R168: while no engine step runs Fx15, fair ticks bring DT to 0 and it stays there, and without a tick it does not
move: what a wait for DT = 0 needs of the timer (tick fairness is the premise D11 lets a claim name; log 2). -/
def Obligations.FairTicksBringDelayTimerToZero : Prop :=
  ∀ (order : Nat → Turn) (state : Nat → State) (n : Nat), Run order state →
    (∀ m w x, n ≤ m → order m = .engine → (state m).fetch = some w → decode w ≠ .ok (.ldDTVx x)) →
    (FairTicks order → ∃ k, n ≤ k ∧ ∀ m, k ≤ m → (state m).DT = 0x00#8) ∧
    (∀ m, n ≤ m → (∀ j, n ≤ j → j < m → order j ≠ .tick) → (state m).DT = (state n).DT)

/-- R195, R164, R198: in an endless run a key wait stays at `ia` until the host presses a key, and the self-jump at the end of a
run stays there whatever the other agents do; neither changes V, I, S, P, M or F (D29 for END_ADDR, D21 for the key's level;
log 2). -/
def Obligations.WaitsRunForever : Prop :=
  ∀ (order : Nat → Turn) (state : Nat → State) (n m : Nat), Run order state → n ≤ m →
    ((∃ w x, (state n).F = none ∧ (state n).fetch = some w ∧ decode w = .ok (.ldVxK x)) →
      (∀ k : Nibble, (state n).keyDown k = false) →
      (∀ j keys, n ≤ j → j < m → order j = .keypad keys → ∀ k : Fin 16, keys[k] = false) →
      (state m).pc = (state n).pc ∧ (∀ k : Nibble, (state m).keyDown k = false) ∧ OnlyWrites (state n) (state m) [.delay, .sound]) ∧
    (∀ endAddr : Addr, (state n).AtEnd endAddr → (state m).AtEnd endAddr ∧
      (state m).V = (state n).V ∧ (state m).I = (state n).I ∧ (state m).S = (state n).S ∧ (state m).P = (state n).P ∧
      (state m).M = (state n).M)
end

