-- ==== Sys2Proof/Laws/Decode.lean ====
section
/-! SUPPORT. Fields of a word as numbers, fields of encoded words, and what the masks of the opcode map select. -/

namespace Sys2Proof

/-! ### Fields as numbers (30_encoding.md R71) -/

variable (w : Word) (op x y n : Nibble) (nn b1 b2 : Byte) (nnn : Addr)

theorem Word.op_toNat : w.op.toNat = w.toNat / 4096 := by
  have := w.isLt
  simp only [Word.op, BitVec.extractLsb'_toNat, Nat.shiftRight_eq_div_pow]
  omega
theorem Word.x_toNat : w.x.toNat = w.toNat / 256 % 16 := by
  simp only [Word.x, BitVec.extractLsb'_toNat, Nat.shiftRight_eq_div_pow]
theorem Word.y_toNat : w.y.toNat = w.toNat / 16 % 16 := by
  simp only [Word.y, BitVec.extractLsb'_toNat, Nat.shiftRight_eq_div_pow]
theorem Word.n_toNat : w.n.toNat = w.toNat % 16 := by
  simp only [Word.n, BitVec.extractLsb'_toNat, Nat.shiftRight_zero]
theorem Word.nn_toNat : w.nn.toNat = w.toNat % 256 := by
  simp only [Word.nn, BitVec.extractLsb'_toNat, Nat.shiftRight_zero]
theorem Word.nnn_toNat : w.nnn.toNat = w.toNat % 4096 := by
  simp only [Word.nnn, BitVec.extractLsb'_toNat, Nat.shiftRight_zero]
theorem Word.hiByte_toNat : w.hiByte.toNat = w.toNat / 256 := by
  have := w.isLt
  simp only [Word.hiByte, BitVec.extractLsb'_toNat, Nat.shiftRight_eq_div_pow]
  omega
theorem Word.loByte_toNat : w.loByte.toNat = w.toNat % 256 := by
  simp only [Word.loByte, BitVec.extractLsb'_toNat, Nat.shiftRight_zero]

/-- Concatenation as a number: the left part is the high one (00_scope.md R12). -/
theorem append_toNat {k m : Nat} (a : BitVec k) (b : BitVec m) : (a ++ b).toNat = a.toNat * 2 ^ m + b.toNat := by
  rw [BitVec.toNat_append, ← Nat.shiftLeft_add_eq_or_of_lt b.isLt, Nat.shiftLeft_eq]

theorem Word.ofBytes_toNat : (Word.ofBytes b1 b2).toNat = b1.toNat * 256 + b2.toNat := append_toNat b1 b2
theorem encA_toNat : (encA op nnn).toNat = op.toNat * 4096 + nnn.toNat := append_toNat op nnn
theorem encXNN_toNat : (encXNN op x nn).toNat = op.toNat * 4096 + x.toNat * 256 + nn.toNat := by
  refine (append_toNat (op ++ x) nn).trans ?_
  rw [append_toNat]
  omega
theorem encXYN_toNat : (encXYN op x y n).toNat = op.toNat * 4096 + x.toNat * 256 + y.toNat * 16 + n.toNat := by
  refine (append_toNat (op ++ x ++ y) n).trans ?_
  rw [append_toNat, append_toNat]
  omega

/-! ### Fields of bytes and of encoded words -/

@[simp] theorem Word.hiByte_ofBytes : (Word.ofBytes b1 b2).hiByte = b1 :=
  BitVec.eq_of_toNat_eq (by have := b2.isLt; rw [Word.hiByte_toNat, Word.ofBytes_toNat]; omega)
@[simp] theorem Word.loByte_ofBytes : (Word.ofBytes b1 b2).loByte = b2 :=
  BitVec.eq_of_toNat_eq (by have := b2.isLt; rw [Word.loByte_toNat, Word.ofBytes_toNat]; omega)
/-- A word's bytes in memory order give the word back (20_memory.md R53). -/
@[simp] theorem Word.ofBytes_bytes : Word.ofBytes w.hiByte w.loByte = w :=
  BitVec.eq_of_toNat_eq (by rw [Word.ofBytes_toNat, Word.hiByte_toNat, Word.loByte_toNat]; omega)

@[simp] theorem encA_op : (encA op nnn).op = op :=
  BitVec.eq_of_toNat_eq (by have := nnn.isLt; rw [Word.op_toNat, encA_toNat]; omega)
@[simp] theorem encA_nnn : (encA op nnn).nnn = nnn :=
  BitVec.eq_of_toNat_eq (by have := nnn.isLt; rw [Word.nnn_toNat, encA_toNat]; omega)
@[simp] theorem encXNN_op : (encXNN op x nn).op = op :=
  BitVec.eq_of_toNat_eq (by have := x.isLt; have := nn.isLt; rw [Word.op_toNat, encXNN_toNat]; omega)
@[simp] theorem encXNN_x : (encXNN op x nn).x = x :=
  BitVec.eq_of_toNat_eq (by have := x.isLt; have := nn.isLt; rw [Word.x_toNat, encXNN_toNat]; omega)
@[simp] theorem encXNN_nn : (encXNN op x nn).nn = nn :=
  BitVec.eq_of_toNat_eq (by have := nn.isLt; rw [Word.nn_toNat, encXNN_toNat]; omega)
@[simp] theorem encXYN_op : (encXYN op x y n).op = op :=
  BitVec.eq_of_toNat_eq (by
    have := x.isLt; have := y.isLt; have := n.isLt; rw [Word.op_toNat, encXYN_toNat]; omega)
@[simp] theorem encXYN_x : (encXYN op x y n).x = x :=
  BitVec.eq_of_toNat_eq (by
    have := x.isLt; have := y.isLt; have := n.isLt; rw [Word.x_toNat, encXYN_toNat]; omega)
@[simp] theorem encXYN_y : (encXYN op x y n).y = y :=
  BitVec.eq_of_toNat_eq (by have := y.isLt; have := n.isLt; rw [Word.y_toNat, encXYN_toNat]; omega)
@[simp] theorem encXYN_n : (encXYN op x y n).n = n :=
  BitVec.eq_of_toNat_eq (by have := n.isLt; rw [Word.n_toNat, encXYN_toNat]; omega)

/-! ### A word is its fields -/

theorem encA_fields : encA w.op w.nnn = w :=
  BitVec.eq_of_toNat_eq (by rw [encA_toNat, Word.op_toNat, Word.nnn_toNat]; omega)
theorem encXNN_fields : encXNN w.op w.x w.nn = w :=
  BitVec.eq_of_toNat_eq (by rw [encXNN_toNat, Word.op_toNat, Word.x_toNat, Word.nn_toNat]; omega)
theorem encXYN_fields : encXYN w.op w.x w.y w.n = w :=
  BitVec.eq_of_toNat_eq (by rw [encXYN_toNat, Word.op_toNat, Word.x_toNat, Word.y_toNat, Word.n_toNat]; omega)

/-! ### The masks of R74: which fields a masked word keeps -/

theorem and_low_toNat (w : Word) (k : Nat) : w.toNat &&& (2 ^ k - 1) = w.toNat % 2 ^ k := Nat.and_two_pow_sub_one_eq_mod _ _

theorem and_F000_toNat : (w &&& 0xF000#16).toNat = w.op.toNat * 4096 := by
  have e : w &&& 0xF000#16 = (w >>> 12) <<< 12 := by ext k hk; interval_cases k <;> simp
  have := w.isLt
  rw [e, Word.op_toNat]
  simp only [BitVec.toNat_shiftLeft, BitVec.toNat_ushiftRight, Nat.shiftRight_eq_div_pow, Nat.shiftLeft_eq]
  omega

/-- A mask of the class nibble and some low bits keeps the class and those bits. -/
theorem and_class_low_toNat (m : Word) (k : Nat) (hk : k ≤ 12)
    (e : w &&& m = ((w >>> 12) <<< 12) ||| (w &&& BitVec.ofNat 16 (2 ^ k - 1))) :
    (w &&& m).toNat = w.op.toNat * 4096 + w.toNat % 2 ^ k := by
  have hw := w.isLt
  have h1 : 2 ^ k ≤ 2 ^ 12 := Nat.pow_le_pow_right (by decide) hk
  have h2 : (2 ^ k - 1) % 2 ^ 16 = 2 ^ k - 1 := Nat.mod_eq_of_lt (by omega)
  have h3 : w.toNat % 2 ^ k < 2 ^ 12 := Nat.lt_of_lt_of_le (Nat.mod_lt _ (Nat.two_pow_pos k)) h1
  have h4 : (w.toNat / 2 ^ 12 * 2 ^ 12) % 2 ^ 16 = w.toNat / 2 ^ 12 * 2 ^ 12 := Nat.mod_eq_of_lt (by omega)
  rw [e, Word.op_toNat]
  simp only [BitVec.toNat_or, BitVec.toNat_and, BitVec.toNat_ofNat, BitVec.toNat_shiftLeft, BitVec.toNat_ushiftRight,
    Nat.shiftRight_eq_div_pow, Nat.shiftLeft_eq, h2, h4, and_low_toNat]
  have h5 := Nat.shiftLeft_add_eq_or_of_lt h3 (w.toNat / 2 ^ 12)
  rw [Nat.shiftLeft_eq] at h5
  omega

theorem and_F00F_toNat : (w &&& 0xF00F#16).toNat = w.op.toNat * 4096 + w.n.toNat := by
  rw [Word.n_toNat]
  exact and_class_low_toNat w 0xF00F#16 4 (by decide) (by ext k hk; interval_cases k <;> simp)

theorem and_F0FF_toNat : (w &&& 0xF0FF#16).toNat = w.op.toNat * 4096 + w.nn.toNat := by
  rw [Word.nn_toNat]
  exact and_class_low_toNat w 0xF0FF#16 8 (by decide) (by ext k hk; interval_cases k <;> simp)

end Sys2Proof
end

