-- ==== Sys2Proof/Laws/Grid.lean ====
section
/-! SUPPORT. The rasterizer in closed form: each pixel of the grid is XORed with the sprite's bit on it (40_display.md R101 to R103). -/

namespace Sys2Proof.Machine

namespace Grid

variable (g : Grid)

theorem pixel_clear (r c : Nat) : Grid.clear.pixel r c = false := by
  unfold pixel row clear
  by_cases h : r < 32
  · simp [h]
  · simp [h]

theorem row_setIfInBounds (r r' : Nat) (v : BitVec 64) (h : r' < 32) :
    Grid.row (g.setIfInBounds r v) r' = if r' = r then v else g.row r' := by
  unfold row
  rw [Vector.getElem?_setIfInBounds]
  by_cases e : r = r'
  · subst e; simp [h]
  · simp [e, Ne.symm e]

/-- A toggle flips its own pixel and no other. -/
theorem pixel_toggle {r c r' c' : Nat} (hr : r' < 32) (hc : c' < 64) :
    (g.toggle r c).1.pixel r' c' = (g.pixel r' c' ^^ (decide (r' = r) && decide (c' = c))) := by
  unfold toggle pixel
  rw [row_setIfInBounds _ _ _ _ hr]
  by_cases e : r' = r
  · subst e
    by_cases ec : c' = c
    · subst ec; simp [hc]
    · rcases Nat.lt_or_gt_of_ne ec with h | h
      · simp [hc, ec, h]
      · simp [hc, ec, show ¬ c' < c by omega, show c' - c ≠ 0 by omega]
  · simp [e]

/-- One sprite row in closed form. -/
theorem pixel_drawBits {py px r c : Nat} (bits : List Bool) (hr : r < 32) (hc : c < 64) :
    (g.drawBits py px bits).1.pixel r c =
      (g.pixel r c ^^ (decide (r = py) && decide (px ≤ c) && bits.getD (c - px) false)) := by
  induction bits generalizing g px with
  | nil => simp [drawBits]
  | cons b bits ih =>
    unfold drawBits
    split
    · simp [show ¬ px ≤ c by omega]
    · simp only [ih]
      have h0 : (if b = true then g.toggle py px else (g, false)).1.pixel r c =
          (g.pixel r c ^^ (decide (r = py) && decide (c = px) && b)) := by
        cases b <;> simp [pixel_toggle, hr, hc]
      rw [h0]
      rcases Nat.lt_trichotomy c px with h | h | h
      · simp [show ¬ px + 1 ≤ c by omega, show ¬ px ≤ c by omega, show c ≠ px by omega]
      · subst h; simp
      · obtain ⟨k, rfl⟩ : ∃ k, c = px + 1 + k := ⟨c - (px + 1), by omega⟩
        simp [show px + 1 + k - px = k + 1 by omega, show px + 1 + k ≠ px by omega, show px ≤ px + 1 + k by omega]

/-- The collision of one sprite row: some set bit on a pixel that is on. -/
theorem drawBits_collision {py px : Nat} (bits : List Bool) (hr : py < 32) :
    (g.drawBits py px bits).2 = true ↔
      ∃ c, px ≤ c ∧ c < 64 ∧ bits.getD (c - px) false = true ∧ g.pixel py c = true := by
  induction bits generalizing g px with
  | nil => simp [drawBits]
  | cons b bits ih =>
    unfold drawBits
    split
    · simp only [Bool.false_eq_true, false_iff]
      rintro ⟨c, h1, h2, -⟩; omega
    · rename_i hpx
      simp only [Bool.or_eq_true, ih]
      constructor
      · rintro (h | ⟨c, h1, h2, h3, h4⟩)
        · cases b
          · simp at h
          · exact ⟨px, by omega, by omega, by simp, by simpa [toggle] using h⟩
        · refine ⟨c, by omega, h2, ?_, ?_⟩
          · obtain ⟨k, rfl⟩ : ∃ k, c = px + 1 + k := ⟨c - (px + 1), by omega⟩
            simpa [show px + 1 + k - px = k + 1 by omega] using h3
          · cases b
            · simpa using h4
            · simpa [pixel_toggle _ hr h2, show c ≠ px by omega] using h4
      · rintro ⟨c, h1, h2, h3, h4⟩
        by_cases e : c = px
        · subst e
          left
          have : b = true := by simpa using h3
          subst this
          simpa [toggle] using h4
        · right
          refine ⟨c, by omega, h2, ?_, ?_⟩
          · obtain ⟨k, rfl⟩ : ∃ k, c = px + 1 + k := ⟨c - (px + 1), by omega⟩
            simpa [show px + 1 + k - px = k + 1 by omega] using h3
          · cases b
            · simpa using h4
            · simpa [pixel_toggle _ hr h2, e] using h4

theorem spriteBits_getD (b : Byte) (k : Nat) : (spriteBits b).getD k false = (decide (k < 8) && b.getLsbD (7 - k)) := by
  by_cases h : k < 8
  · simp [spriteBits, List.getD, h]
  · simp [spriteBits, List.getD, h]

/-- A sprite's bit on pixel (r, c): row `r - y0` of its bytes, bit `7 - (c - x0)`. -/
def spriteBit (x0 y0 : Nat) (bytes : List Byte) (r c : Nat) : Bool :=
  decide (y0 ≤ r) && decide (x0 ≤ c) && decide (c - x0 < 8) && (bytes.getD (r - y0) 0#8).getLsbD (7 - (c - x0))

theorem spriteBit_cons (x0 y0 : Nat) (b : Byte) (bs : List Byte) (r c : Nat) :
    spriteBit x0 y0 (b :: bs) r c =
      if r = y0 then decide (x0 ≤ c) && decide (c - x0 < 8) && b.getLsbD (7 - (c - x0))
      else spriteBit x0 (y0 + 1) bs r c := by
  unfold spriteBit
  rcases Nat.lt_trichotomy r y0 with h | h | h
  · simp [show ¬ y0 ≤ r by omega, show ¬ y0 + 1 ≤ r by omega, show r ≠ y0 by omega]
  · subst h; simp
  · obtain ⟨k, rfl⟩ : ∃ k, r = y0 + 1 + k := ⟨r - (y0 + 1), by omega⟩
    simp [show y0 + 1 + k - y0 = k + 1 by omega, show y0 + 1 + k ≠ y0 by omega, show y0 ≤ y0 + 1 + k by omega]

/-- A whole sprite in closed form. -/
theorem pixel_drawRows {x0 y0 r c : Nat} (bytes : List Byte) (hr : r < 32) (hc : c < 64) :
    (g.drawRows x0 y0 bytes).1.pixel r c = (g.pixel r c ^^ spriteBit x0 y0 bytes r c) := by
  induction bytes generalizing g y0 with
  | nil => simp [drawRows, spriteBit]
  | cons b bs ih =>
    unfold drawRows
    split
    · simp [spriteBit, show ¬ y0 ≤ r by omega]
    · simp only [ih, pixel_drawBits _ _ hr hc, spriteBits_getD, spriteBit_cons]
      by_cases e : r = y0
      · subst e
        have : spriteBit x0 (r + 1) bs r c = false := by simp [spriteBit]
        simp [this, Bool.and_assoc]
      · simp [e]

/-- The collision bit: some sprite bit falls on a pixel that is on. -/
theorem drawRows_collision {x0 y0 : Nat} (bytes : List Byte) :
    (g.drawRows x0 y0 bytes).2 = true ↔
      ∃ r c, r < 32 ∧ c < 64 ∧ spriteBit x0 y0 bytes r c = true ∧ g.pixel r c = true := by
  induction bytes generalizing g y0 with
  | nil => simp [drawRows, spriteBit]
  | cons b bs ih =>
    unfold drawRows
    split
    · simp only [Bool.false_eq_true, false_iff]
      rintro ⟨r, c, h1, -, h3, -⟩
      simp [spriteBit, show ¬ y0 ≤ r by omega] at h3
    · rename_i hy
      simp only [Bool.or_eq_true, ih, drawBits_collision _ _ (show y0 < 32 by omega), spriteBits_getD]
      constructor
      · rintro (⟨c, h1, h2, h3, h4⟩ | ⟨r, c, h1, h2, h3, h4⟩)
        · exact ⟨y0, c, by omega, h2, by simpa [spriteBit_cons, h1] using h3, h4⟩
        · have hne : r ≠ y0 := by rintro rfl; simp [spriteBit] at h3
          refine ⟨r, c, h1, h2, by simpa [spriteBit_cons, hne] using h3, ?_⟩
          simpa [pixel_drawBits _ _ h1 h2, hne] using h4
      · rintro ⟨r, c, h1, h2, h3, h4⟩
        by_cases e : r = y0
        · subst e
          simp only [spriteBit_cons, ite_true, Bool.and_eq_true, decide_eq_true_eq] at h3
          exact .inl ⟨c, h3.1.1, h2, by simp [h3], h4⟩
        · refine .inr ⟨r, c, h1, h2, by simpa [spriteBit_cons, e] using h3, ?_⟩
          simpa [pixel_drawBits _ _ h1 h2, e] using h4

/-- Grids with the same pixels are the same grid. -/
theorem ext_pixel {g h : Grid} (e : ∀ r c, r < 32 → c < 64 → g.pixel r c = h.pixel r c) : g = h := by
  apply Vector.ext
  intro r hr
  apply BitVec.eq_of_getLsbD_eq
  intro c hc
  simpa [pixel, row, hr] using e r c hr hc

end Grid

end Sys2Proof.Machine
end

