-- ==== Sys2Proof/Laws/Memory.lean ====
section
/-! SUPPORT. The laws of AddressSpace: read after write, and the canonical form every operation keeps. -/

namespace Sys2Proof.Machine

namespace Memory

variable (m : Memory)

theorem find_place (a b : Nat) (v : Byte) (h : m.find a = none) :
    (place a v m).find b = if b = a then some v else m.find b := by
  induction m with
  | nil => simp [place, find]
  | cons c m ih =>
    obtain ⟨d, u⟩ := c
    simp only [find] at h
    split at h
    · cases h
    · rename_i had
      simp only [place]
      split
      · simp [find]
      · simp only [find, ih h]
        split <;> split <;> simp_all

theorem find_erase (a b : Nat) : (erase m a).find b = if b = a then none else m.find b := by
  induction m with
  | nil => simp [erase, find]
  | cons c m ih =>
    obtain ⟨d, u⟩ := c
    simp only [erase, List.filter_cons, find] at ih ⊢
    by_cases hd : d = a
    · subst hd
      simp only [bne_self_eq_false, Bool.false_eq_true, ite_false, ih]
      split <;> rfl
    · simp only [bne_iff_ne, ne_eq, hd, not_false_eq_true, ite_true, find, ih]
      split <;> split <;> simp_all

/-- A write gives its own address the value, and leaves every other address alone. -/
theorem read_write (a b : Nat) (v : Byte) :
    (m.write a v).read b = if b = a then v else m.read b := by
  have hn : (erase m a).find a = none := by simp [find_erase]
  unfold write read
  split
  · rename_i hv
    by_cases h : b = a <;> simp [find_erase, h, hv]
  · by_cases h : b = a <;> simp [find_place _ _ _ _ hn, find_erase, h]

@[simp] theorem read_write_same (a : Nat) (v : Byte) : (m.write a v).read a = v := by simp [read_write]

theorem read_write_ne {a b : Nat} (v : Byte) (h : b ≠ a) : (m.write a v).read b = m.read b := by
  simp [read_write, h]

/-- Writing a list of bytes: inside the range its byte, outside as before. -/
theorem read_writeBytes (a b : Nat) (vs : List Byte) :
    (m.writeBytes a vs).read b =
      if a ≤ b ∧ b < a + vs.length then vs.getD (b - a) 0#8 else m.read b := by
  induction vs generalizing m a with
  | nil => simp [writeBytes, show ¬ (a ≤ b ∧ b < a) from by omega]
  | cons v vs ih =>
    rw [writeBytes, ih, read_write]
    rcases Nat.lt_trichotomy b a with h | h | h
    · simp [show ¬ (a + 1 ≤ b) by omega, show ¬ (a ≤ b) by omega, Nat.ne_of_lt h]
    · subst h; simp
    · obtain ⟨k, rfl⟩ : ∃ k, b = a + 1 + k := ⟨b - (a + 1), by omega⟩
      have e : a + 1 + k - a = k + 1 := by omega
      have e' : a + 1 + k ≠ a := by omega
      by_cases hk : k < vs.length
      · rw [if_pos (by omega), if_pos (by simp only [List.length_cons]; omega), e]; simp
      · rw [if_neg (by omega), if_neg e', if_neg (by simp only [List.length_cons]; omega)]

theorem readBytes_length (a n : Nat) : (m.readBytes a n).length = n := by
  induction n generalizing a with
  | zero => rfl
  | succ n ih => simp [readBytes, ih]

theorem readBytes_getElem? (a n k : Nat) :
    (m.readBytes a n)[k]? = if k < n then some (m.read (a + k)) else none := by
  induction n generalizing a k with
  | zero => simp [readBytes]
  | succ n ih =>
    cases k with
    | zero => simp [readBytes]
    | succ k => simp [readBytes, ih, Nat.add_assoc, Nat.add_comm 1 k]

/-! ### The canonical form -/

theorem erase_wf {m : Memory} (h : m.wf) (a : Nat) : (erase m a).wf :=
  ⟨h.1.filter _, fun c hc => h.2 c (List.mem_filter.mp hc).1⟩

theorem mem_place {m : Memory} {a : Nat} {v : Byte} {c : Host.Cell} (h : c ∈ place a v m) : c = (a, v) ∨ c ∈ m := by
  induction m with
  | nil => simpa [place] using h
  | cons d m ih =>
    obtain ⟨b, u⟩ := d
    simp only [place] at h
    split at h
    · simpa using h
    · rcases List.mem_cons.mp h with h | h
      · exact .inr (by simp [h])
      · exact (ih h).imp id (fun h => by simp [h])

theorem place_rising {m : Memory} {a : Nat} {v : Byte} (h : m.Pairwise (fun c d => c.1 < d.1)) (ha : ∀ c ∈ m, c.1 ≠ a) :
    (place a v m).Pairwise (fun c d => c.1 < d.1) := by
  induction m with
  | nil => simp [place]
  | cons d m ih =>
    obtain ⟨b, u⟩ := d
    have hb : b ≠ a := ha (b, u) (by simp)
    obtain ⟨h1, h2⟩ := List.pairwise_cons.mp h
    simp only [place]
    split
    · rename_i hab
      refine List.pairwise_cons.mpr ⟨fun c hc => ?_, h⟩
      rcases List.mem_cons.mp hc with rfl | hc
      · exact hab
      · exact Nat.lt_trans hab (h1 c hc)
    · refine List.pairwise_cons.mpr ⟨fun c hc => ?_, ih h2 (fun c hc => ha c (by simp [hc]))⟩
      rcases mem_place hc with rfl | hc
      · show b < a
        omega
      · exact h1 c hc

/-- A write inside the address space keeps the canonical form. -/
theorem write_wf {m : Memory} (h : m.wf) {a : Nat} (ha : a ≤ topAddr) (v : Byte) : (m.write a v).wf := by
  have he := erase_wf h a
  unfold write
  split
  · exact he
  · rename_i hv
    refine ⟨place_rising he.1 (fun c hc => ?_), fun c hc => ?_⟩
    · simpa using (List.mem_filter.mp hc).2
    · rcases mem_place hc with rfl | hc
      · exact ⟨ha, hv⟩
      · exact he.2 c hc

/-- Writes that end inside the address space keep the canonical form. -/
theorem writeBytes_wf {m : Memory} (h : m.wf) {a : Nat} (vs : List Byte) (ha : a + vs.length ≤ topAddr + 1) :
    (m.writeBytes a vs).wf := by
  induction vs generalizing m a with
  | nil => exact h
  | cons v vs ih =>
    simp only [List.length_cons] at ha
    exact ih (write_wf h (by omega) v) (by omega)

theorem nil_wf : Memory.wf [] := by simp [wf]

end Memory

end Sys2Proof.Machine
end

