-- ==== Sys2Proof/Laws/PerInstr.lean ====
section
/-! SUPPORT. The family EncodeSelectsRow: the encoding of each instruction selects its own row of the opcode map
(30_encoding.md R74), and the row reads the instruction back. -/

namespace Sys2Proof.Laws.EncodeSelectsRow

/-- The place of an instruction's row in R74, counted from 0. -/
def rowOf : Instr → Nat
  | .cls => 0
  | .ret => 1
  | .sys _ => 2
  | .jp _ => 3
  | .call _ => 4
  | .seImm _ _ => 5
  | .sneImm _ _ => 6
  | .seReg _ _ => 7
  | .ldImm _ _ => 8
  | .addImm _ _ => 9
  | .ldReg _ _ => 10
  | .orReg _ _ => 11
  | .andReg _ _ => 12
  | .xorReg _ _ => 13
  | .addReg _ _ => 14
  | .subReg _ _ => 15
  | .shrReg _ _ => 16
  | .subnReg _ _ => 17
  | .shlReg _ _ => 18
  | .sneReg _ _ => 19
  | .ldI _ => 20
  | .jpV0 _ => 21
  | .rnd _ _ => 22
  | .drw _ _ _ => 23
  | .skp _ => 24
  | .sknp _ => 25
  | .ldVxDT _ => 26
  | .ldVxK _ => 27
  | .ldDTVx _ => 28
  | .ldSTVx _ => 29
  | .addI _ => 30
  | .ldF _ => 31
  | .ldB _ => 32
  | .storeRegs _ => 33
  | .loadRegs _ => 34

/-- The instruction's word selects its row, which gives the instruction. -/
def Statement (i : Instr) : Prop :=
  ∃ r, opcodeTable[rowOf i]? = some r ∧ r.selects (encode i) = true ∧ r.instr (encode i) = i

theorem selects_A (op : Nibble) (nnn : Addr) {p : Word} (h : p.toNat = op.toNat * 4096) :
    (encA op nnn &&& 0xF000#16 == p) = true :=
  beq_iff_eq.mpr (BitVec.eq_of_toNat_eq (by rw [and_F000_toNat, encA_op, h]))

theorem selects_XNN (op x : Nibble) (nn : Byte) {p : Word} (h : p.toNat = op.toNat * 4096) :
    (encXNN op x nn &&& 0xF000#16 == p) = true :=
  beq_iff_eq.mpr (BitVec.eq_of_toNat_eq (by rw [and_F000_toNat, encXNN_op, h]))

theorem selects_XYN (op x y n : Nibble) {p : Word} (h : p.toNat = op.toNat * 4096) :
    (encXYN op x y n &&& 0xF000#16 == p) = true :=
  beq_iff_eq.mpr (BitVec.eq_of_toNat_eq (by rw [and_F000_toNat, encXYN_op, h]))

theorem selects_XY (op x y n : Nibble) {p : Word} (h : p.toNat = op.toNat * 4096 + n.toNat) :
    (encXYN op x y n &&& 0xF00F#16 == p) = true :=
  beq_iff_eq.mpr (BitVec.eq_of_toNat_eq (by rw [and_F00F_toNat, encXYN_op, encXYN_n, h]))

theorem selects_X (op x : Nibble) (nn : Byte) {p : Word} (h : p.toNat = op.toNat * 4096 + nn.toNat) :
    (encXNN op x nn &&& 0xF0FF#16 == p) = true :=
  beq_iff_eq.mpr (BitVec.eq_of_toNat_eq (by rw [and_F0FF_toNat, encXNN_op, encXNN_nn, h]))

theorem cls : Statement .cls := ⟨_, rfl, rfl, rfl⟩
theorem ret : Statement .ret := ⟨_, rfl, rfl, rfl⟩
theorem sys (nnn : Addr) : Statement (.sys nnn) :=
  ⟨_, rfl, selects_A _ nnn rfl, congrArg Instr.sys (encA_nnn _ nnn)⟩
theorem jp (nnn : Addr) : Statement (.jp nnn) :=
  ⟨_, rfl, selects_A _ nnn rfl, congrArg Instr.jp (encA_nnn _ nnn)⟩
theorem call (nnn : Addr) : Statement (.call nnn) :=
  ⟨_, rfl, selects_A _ nnn rfl, congrArg Instr.call (encA_nnn _ nnn)⟩
theorem seImm (x : Nibble) (nn : Byte) : Statement (.seImm x nn) :=
  ⟨_, rfl, selects_XNN _ x nn rfl, congr (congrArg Instr.seImm (encXNN_x _ x nn)) (encXNN_nn _ x nn)⟩
theorem sneImm (x : Nibble) (nn : Byte) : Statement (.sneImm x nn) :=
  ⟨_, rfl, selects_XNN _ x nn rfl, congr (congrArg Instr.sneImm (encXNN_x _ x nn)) (encXNN_nn _ x nn)⟩
theorem seReg (x y : Nibble) : Statement (.seReg x y) :=
  ⟨_, rfl, selects_XY _ x y _ rfl, congr (congrArg Instr.seReg (encXYN_x _ x y _)) (encXYN_y _ x y _)⟩
theorem ldImm (x : Nibble) (nn : Byte) : Statement (.ldImm x nn) :=
  ⟨_, rfl, selects_XNN _ x nn rfl, congr (congrArg Instr.ldImm (encXNN_x _ x nn)) (encXNN_nn _ x nn)⟩
theorem addImm (x : Nibble) (nn : Byte) : Statement (.addImm x nn) :=
  ⟨_, rfl, selects_XNN _ x nn rfl, congr (congrArg Instr.addImm (encXNN_x _ x nn)) (encXNN_nn _ x nn)⟩
theorem ldReg (x y : Nibble) : Statement (.ldReg x y) :=
  ⟨_, rfl, selects_XY _ x y _ rfl, congr (congrArg Instr.ldReg (encXYN_x _ x y _)) (encXYN_y _ x y _)⟩
theorem orReg (x y : Nibble) : Statement (.orReg x y) :=
  ⟨_, rfl, selects_XY _ x y _ rfl, congr (congrArg Instr.orReg (encXYN_x _ x y _)) (encXYN_y _ x y _)⟩
theorem andReg (x y : Nibble) : Statement (.andReg x y) :=
  ⟨_, rfl, selects_XY _ x y _ rfl, congr (congrArg Instr.andReg (encXYN_x _ x y _)) (encXYN_y _ x y _)⟩
theorem xorReg (x y : Nibble) : Statement (.xorReg x y) :=
  ⟨_, rfl, selects_XY _ x y _ rfl, congr (congrArg Instr.xorReg (encXYN_x _ x y _)) (encXYN_y _ x y _)⟩
theorem addReg (x y : Nibble) : Statement (.addReg x y) :=
  ⟨_, rfl, selects_XY _ x y _ rfl, congr (congrArg Instr.addReg (encXYN_x _ x y _)) (encXYN_y _ x y _)⟩
theorem subReg (x y : Nibble) : Statement (.subReg x y) :=
  ⟨_, rfl, selects_XY _ x y _ rfl, congr (congrArg Instr.subReg (encXYN_x _ x y _)) (encXYN_y _ x y _)⟩
theorem shrReg (x y : Nibble) : Statement (.shrReg x y) :=
  ⟨_, rfl, selects_XY _ x y _ rfl, congr (congrArg Instr.shrReg (encXYN_x _ x y _)) (encXYN_y _ x y _)⟩
theorem subnReg (x y : Nibble) : Statement (.subnReg x y) :=
  ⟨_, rfl, selects_XY _ x y _ rfl, congr (congrArg Instr.subnReg (encXYN_x _ x y _)) (encXYN_y _ x y _)⟩
theorem shlReg (x y : Nibble) : Statement (.shlReg x y) :=
  ⟨_, rfl, selects_XY _ x y _ rfl, congr (congrArg Instr.shlReg (encXYN_x _ x y _)) (encXYN_y _ x y _)⟩
theorem sneReg (x y : Nibble) : Statement (.sneReg x y) :=
  ⟨_, rfl, selects_XY _ x y _ rfl, congr (congrArg Instr.sneReg (encXYN_x _ x y _)) (encXYN_y _ x y _)⟩
theorem ldI (nnn : Addr) : Statement (.ldI nnn) :=
  ⟨_, rfl, selects_A _ nnn rfl, congrArg Instr.ldI (encA_nnn _ nnn)⟩
theorem jpV0 (nnn : Addr) : Statement (.jpV0 nnn) :=
  ⟨_, rfl, selects_A _ nnn rfl, congrArg Instr.jpV0 (encA_nnn _ nnn)⟩
theorem rnd (x : Nibble) (nn : Byte) : Statement (.rnd x nn) :=
  ⟨_, rfl, selects_XNN _ x nn rfl, congr (congrArg Instr.rnd (encXNN_x _ x nn)) (encXNN_nn _ x nn)⟩
theorem drw (x y n : Nibble) : Statement (.drw x y n) :=
  ⟨_, rfl, selects_XYN _ x y n rfl, congr (congr (congrArg Instr.drw (encXYN_x _ x y n)) (encXYN_y _ x y n)) (encXYN_n _ x y n)⟩
theorem skp (x : Nibble) : Statement (.skp x) :=
  ⟨_, rfl, selects_X _ x _ rfl, congrArg Instr.skp (encXNN_x _ x _)⟩
theorem sknp (x : Nibble) : Statement (.sknp x) :=
  ⟨_, rfl, selects_X _ x _ rfl, congrArg Instr.sknp (encXNN_x _ x _)⟩
theorem ldVxDT (x : Nibble) : Statement (.ldVxDT x) :=
  ⟨_, rfl, selects_X _ x _ rfl, congrArg Instr.ldVxDT (encXNN_x _ x _)⟩
theorem ldVxK (x : Nibble) : Statement (.ldVxK x) :=
  ⟨_, rfl, selects_X _ x _ rfl, congrArg Instr.ldVxK (encXNN_x _ x _)⟩
theorem ldDTVx (x : Nibble) : Statement (.ldDTVx x) :=
  ⟨_, rfl, selects_X _ x _ rfl, congrArg Instr.ldDTVx (encXNN_x _ x _)⟩
theorem ldSTVx (x : Nibble) : Statement (.ldSTVx x) :=
  ⟨_, rfl, selects_X _ x _ rfl, congrArg Instr.ldSTVx (encXNN_x _ x _)⟩
theorem addI (x : Nibble) : Statement (.addI x) :=
  ⟨_, rfl, selects_X _ x _ rfl, congrArg Instr.addI (encXNN_x _ x _)⟩
theorem ldF (x : Nibble) : Statement (.ldF x) :=
  ⟨_, rfl, selects_X _ x _ rfl, congrArg Instr.ldF (encXNN_x _ x _)⟩
theorem ldB (x : Nibble) : Statement (.ldB x) :=
  ⟨_, rfl, selects_X _ x _ rfl, congrArg Instr.ldB (encXNN_x _ x _)⟩
theorem storeRegs (x : Nibble) : Statement (.storeRegs x) :=
  ⟨_, rfl, selects_X _ x _ rfl, congrArg Instr.storeRegs (encXNN_x _ x _)⟩
theorem loadRegs (x : Nibble) : Statement (.loadRegs x) :=
  ⟨_, rfl, selects_X _ x _ rfl, congrArg Instr.loadRegs (encXNN_x _ x _)⟩

end Sys2Proof.Laws.EncodeSelectsRow
end

