-- ==== Sys2Proof/Laws/State.lean ====
section
/-! SUPPORT. One lemma per field per update of State, so that no proof unfolds a record update. -/

namespace Sys2Proof.Machine

section
variable (s : State)

/-! ### setReg -/

@[simp] theorem State.setReg_V (x : Nibble) (v : Byte) : (s.setReg x v).V = s.V.set (regIndex x) v := rfl
@[simp] theorem State.setReg_I (x : Nibble) (v : Byte) : (s.setReg x v).I = s.I := rfl
@[simp] theorem State.setReg_pc (x : Nibble) (v : Byte) : (s.setReg x v).pc = s.pc := rfl
@[simp] theorem State.setReg_S (x : Nibble) (v : Byte) : (s.setReg x v).S = s.S := rfl
@[simp] theorem State.setReg_DT (x : Nibble) (v : Byte) : (s.setReg x v).DT = s.DT := rfl
@[simp] theorem State.setReg_ST (x : Nibble) (v : Byte) : (s.setReg x v).ST = s.ST := rfl
@[simp] theorem State.setReg_P (x : Nibble) (v : Byte) : (s.setReg x v).P = s.P := rfl
@[simp] theorem State.setReg_M (x : Nibble) (v : Byte) : (s.setReg x v).M = s.M := rfl
@[simp] theorem State.setReg_K (x : Nibble) (v : Byte) : (s.setReg x v).K = s.K := rfl
@[simp] theorem State.setReg_F (x : Nibble) (v : Byte) : (s.setReg x v).F = s.F := rfl
@[simp] theorem State.setReg_cfg (x : Nibble) (v : Byte) : (s.setReg x v).cfg = s.cfg := rfl
@[simp] theorem State.setReg_draws (x : Nibble) (v : Byte) : (s.setReg x v).draws = s.draws := rfl
@[simp] theorem State.setReg_agenda (x : Nibble) (v : Byte) : (s.setReg x v).agenda = s.agenda := rfl

/-! ### advance -/

@[simp] theorem State.advance_V : (s.advance).V = s.V := rfl
@[simp] theorem State.advance_I : (s.advance).I = s.I := rfl
@[simp] theorem State.advance_pc : (s.advance).pc = s.pc + 2 := rfl
@[simp] theorem State.advance_S : (s.advance).S = s.S := rfl
@[simp] theorem State.advance_DT : (s.advance).DT = s.DT := rfl
@[simp] theorem State.advance_ST : (s.advance).ST = s.ST := rfl
@[simp] theorem State.advance_P : (s.advance).P = s.P := rfl
@[simp] theorem State.advance_M : (s.advance).M = s.M := rfl
@[simp] theorem State.advance_K : (s.advance).K = s.K := rfl
@[simp] theorem State.advance_F : (s.advance).F = s.F := rfl
@[simp] theorem State.advance_cfg : (s.advance).cfg = s.cfg := rfl
@[simp] theorem State.advance_draws : (s.advance).draws = s.draws := rfl
@[simp] theorem State.advance_agenda : (s.advance).agenda = s.agenda := rfl

/-! ### jumpTo -/

@[simp] theorem State.jumpTo_V (a : Word) : (s.jumpTo a).V = s.V := rfl
@[simp] theorem State.jumpTo_I (a : Word) : (s.jumpTo a).I = s.I := rfl
@[simp] theorem State.jumpTo_pc (a : Word) : (s.jumpTo a).pc = a := rfl
@[simp] theorem State.jumpTo_S (a : Word) : (s.jumpTo a).S = s.S := rfl
@[simp] theorem State.jumpTo_DT (a : Word) : (s.jumpTo a).DT = s.DT := rfl
@[simp] theorem State.jumpTo_ST (a : Word) : (s.jumpTo a).ST = s.ST := rfl
@[simp] theorem State.jumpTo_P (a : Word) : (s.jumpTo a).P = s.P := rfl
@[simp] theorem State.jumpTo_M (a : Word) : (s.jumpTo a).M = s.M := rfl
@[simp] theorem State.jumpTo_K (a : Word) : (s.jumpTo a).K = s.K := rfl
@[simp] theorem State.jumpTo_F (a : Word) : (s.jumpTo a).F = s.F := rfl
@[simp] theorem State.jumpTo_cfg (a : Word) : (s.jumpTo a).cfg = s.cfg := rfl
@[simp] theorem State.jumpTo_draws (a : Word) : (s.jumpTo a).draws = s.draws := rfl
@[simp] theorem State.jumpTo_agenda (a : Word) : (s.jumpTo a).agenda = s.agenda := rfl

/-! ### push -/

@[simp] theorem State.push_V (a : Word) : (s.push a).V = s.V := rfl
@[simp] theorem State.push_I (a : Word) : (s.push a).I = s.I := rfl
@[simp] theorem State.push_pc (a : Word) : (s.push a).pc = s.pc := rfl
@[simp] theorem State.push_S (a : Word) : (s.push a).S = a :: s.S := rfl
@[simp] theorem State.push_DT (a : Word) : (s.push a).DT = s.DT := rfl
@[simp] theorem State.push_ST (a : Word) : (s.push a).ST = s.ST := rfl
@[simp] theorem State.push_P (a : Word) : (s.push a).P = s.P := rfl
@[simp] theorem State.push_M (a : Word) : (s.push a).M = s.M := rfl
@[simp] theorem State.push_K (a : Word) : (s.push a).K = s.K := rfl
@[simp] theorem State.push_F (a : Word) : (s.push a).F = s.F := rfl
@[simp] theorem State.push_cfg (a : Word) : (s.push a).cfg = s.cfg := rfl
@[simp] theorem State.push_draws (a : Word) : (s.push a).draws = s.draws := rfl
@[simp] theorem State.push_agenda (a : Word) : (s.push a).agenda = s.agenda := rfl

/-! ### raise -/

@[simp] theorem State.raise_V (code : FaultCode) (w : Option Word) (a : Option Nat) : (s.raise code w a).V = s.V := rfl
@[simp] theorem State.raise_I (code : FaultCode) (w : Option Word) (a : Option Nat) : (s.raise code w a).I = s.I := rfl
@[simp] theorem State.raise_pc (code : FaultCode) (w : Option Word) (a : Option Nat) : (s.raise code w a).pc = s.pc := rfl
@[simp] theorem State.raise_S (code : FaultCode) (w : Option Word) (a : Option Nat) : (s.raise code w a).S = s.S := rfl
@[simp] theorem State.raise_DT (code : FaultCode) (w : Option Word) (a : Option Nat) : (s.raise code w a).DT = s.DT := rfl
@[simp] theorem State.raise_ST (code : FaultCode) (w : Option Word) (a : Option Nat) : (s.raise code w a).ST = s.ST := rfl
@[simp] theorem State.raise_P (code : FaultCode) (w : Option Word) (a : Option Nat) : (s.raise code w a).P = s.P := rfl
@[simp] theorem State.raise_M (code : FaultCode) (w : Option Word) (a : Option Nat) : (s.raise code w a).M = s.M := rfl
@[simp] theorem State.raise_K (code : FaultCode) (w : Option Word) (a : Option Nat) : (s.raise code w a).K = s.K := rfl
@[simp] theorem State.raise_F (code : FaultCode) (w : Option Word) (a : Option Nat) : (s.raise code w a).F = some { code := code, ia := s.pc, word := w, addr := a } := rfl
@[simp] theorem State.raise_cfg (code : FaultCode) (w : Option Word) (a : Option Nat) : (s.raise code w a).cfg = s.cfg := rfl
@[simp] theorem State.raise_draws (code : FaultCode) (w : Option Word) (a : Option Nat) : (s.raise code w a).draws = s.draws := rfl
@[simp] theorem State.raise_agenda (code : FaultCode) (w : Option Word) (a : Option Nat) : (s.raise code w a).agenda = s.agenda := rfl

/-! ### tick -/

@[simp] theorem State.tick_V : (s.tick).V = s.V := rfl
@[simp] theorem State.tick_I : (s.tick).I = s.I := rfl
@[simp] theorem State.tick_pc : (s.tick).pc = s.pc := rfl
@[simp] theorem State.tick_S : (s.tick).S = s.S := rfl
@[simp] theorem State.tick_DT : (s.tick).DT = ticked s.DT := rfl
@[simp] theorem State.tick_ST : (s.tick).ST = ticked s.ST := rfl
@[simp] theorem State.tick_P : (s.tick).P = s.P := rfl
@[simp] theorem State.tick_M : (s.tick).M = s.M := rfl
@[simp] theorem State.tick_K : (s.tick).K = s.K := rfl
@[simp] theorem State.tick_F : (s.tick).F = s.F := rfl
@[simp] theorem State.tick_cfg : (s.tick).cfg = s.cfg := rfl
@[simp] theorem State.tick_draws : (s.tick).draws = s.draws := rfl
@[simp] theorem State.tick_agenda : (s.tick).agenda = s.agenda := rfl

/-! ### replaceKeypad -/

@[simp] theorem State.replaceKeypad_V (k : Vector Bool 16) : (s.replaceKeypad k).V = s.V := rfl
@[simp] theorem State.replaceKeypad_I (k : Vector Bool 16) : (s.replaceKeypad k).I = s.I := rfl
@[simp] theorem State.replaceKeypad_pc (k : Vector Bool 16) : (s.replaceKeypad k).pc = s.pc := rfl
@[simp] theorem State.replaceKeypad_S (k : Vector Bool 16) : (s.replaceKeypad k).S = s.S := rfl
@[simp] theorem State.replaceKeypad_DT (k : Vector Bool 16) : (s.replaceKeypad k).DT = s.DT := rfl
@[simp] theorem State.replaceKeypad_ST (k : Vector Bool 16) : (s.replaceKeypad k).ST = s.ST := rfl
@[simp] theorem State.replaceKeypad_P (k : Vector Bool 16) : (s.replaceKeypad k).P = s.P := rfl
@[simp] theorem State.replaceKeypad_M (k : Vector Bool 16) : (s.replaceKeypad k).M = s.M := rfl
@[simp] theorem State.replaceKeypad_K (k : Vector Bool 16) : (s.replaceKeypad k).K = k := rfl
@[simp] theorem State.replaceKeypad_F (k : Vector Bool 16) : (s.replaceKeypad k).F = s.F := rfl
@[simp] theorem State.replaceKeypad_cfg (k : Vector Bool 16) : (s.replaceKeypad k).cfg = s.cfg := rfl
@[simp] theorem State.replaceKeypad_draws (k : Vector Bool 16) : (s.replaceKeypad k).draws = s.draws := rfl
@[simp] theorem State.replaceKeypad_agenda (k : Vector Bool 16) : (s.replaceKeypad k).agenda = s.agenda := rfl

/-! ### takeTurn -/

@[simp] theorem State.takeTurn_V : (s.takeTurn).V = s.V := rfl
@[simp] theorem State.takeTurn_I : (s.takeTurn).I = s.I := rfl
@[simp] theorem State.takeTurn_pc : (s.takeTurn).pc = s.pc := rfl
@[simp] theorem State.takeTurn_S : (s.takeTurn).S = s.S := rfl
@[simp] theorem State.takeTurn_DT : (s.takeTurn).DT = s.DT := rfl
@[simp] theorem State.takeTurn_ST : (s.takeTurn).ST = s.ST := rfl
@[simp] theorem State.takeTurn_P : (s.takeTurn).P = s.P := rfl
@[simp] theorem State.takeTurn_M : (s.takeTurn).M = s.M := rfl
@[simp] theorem State.takeTurn_K : (s.takeTurn).K = s.K := rfl
@[simp] theorem State.takeTurn_F : (s.takeTurn).F = s.F := rfl
@[simp] theorem State.takeTurn_cfg : (s.takeTurn).cfg = s.cfg := rfl
@[simp] theorem State.takeTurn_draws : (s.takeTurn).draws = s.draws := rfl
@[simp] theorem State.takeTurn_agenda : (s.takeTurn).agenda = s.agenda.tail := rfl

/-! ### setRegFlag: two register writes -/

@[simp] theorem State.setRegFlag_I (x : Nibble) (v w : Byte) : (s.setRegFlag x v w).I = s.I := rfl
@[simp] theorem State.setRegFlag_pc (x : Nibble) (v w : Byte) : (s.setRegFlag x v w).pc = s.pc := rfl
@[simp] theorem State.setRegFlag_S (x : Nibble) (v w : Byte) : (s.setRegFlag x v w).S = s.S := rfl
@[simp] theorem State.setRegFlag_DT (x : Nibble) (v w : Byte) : (s.setRegFlag x v w).DT = s.DT := rfl
@[simp] theorem State.setRegFlag_ST (x : Nibble) (v w : Byte) : (s.setRegFlag x v w).ST = s.ST := rfl
@[simp] theorem State.setRegFlag_P (x : Nibble) (v w : Byte) : (s.setRegFlag x v w).P = s.P := rfl
@[simp] theorem State.setRegFlag_M (x : Nibble) (v w : Byte) : (s.setRegFlag x v w).M = s.M := rfl
@[simp] theorem State.setRegFlag_K (x : Nibble) (v w : Byte) : (s.setRegFlag x v w).K = s.K := rfl
@[simp] theorem State.setRegFlag_F (x : Nibble) (v w : Byte) : (s.setRegFlag x v w).F = s.F := rfl
@[simp] theorem State.setRegFlag_cfg (x : Nibble) (v w : Byte) : (s.setRegFlag x v w).cfg = s.cfg := rfl
@[simp] theorem State.setRegFlag_draws (x : Nibble) (v w : Byte) : (s.setRegFlag x v w).draws = s.draws := rfl
@[simp] theorem State.setRegFlag_agenda (x : Nibble) (v w : Byte) : (s.setRegFlag x v w).agenda = s.agenda := rfl

/-! ### skipIf: pc only -/

@[simp] theorem State.skipIf_V (b : Bool) : (s.skipIf b).V = s.V := by cases b <;> rfl
@[simp] theorem State.skipIf_I (b : Bool) : (s.skipIf b).I = s.I := by cases b <;> rfl
@[simp] theorem State.skipIf_pc (b : Bool) : (s.skipIf b).pc = if b then s.pc + 2 + 2 else s.pc + 2 := by
  cases b <;> rfl
@[simp] theorem State.skipIf_S (b : Bool) : (s.skipIf b).S = s.S := by cases b <;> rfl
@[simp] theorem State.skipIf_DT (b : Bool) : (s.skipIf b).DT = s.DT := by cases b <;> rfl
@[simp] theorem State.skipIf_ST (b : Bool) : (s.skipIf b).ST = s.ST := by cases b <;> rfl
@[simp] theorem State.skipIf_P (b : Bool) : (s.skipIf b).P = s.P := by cases b <;> rfl
@[simp] theorem State.skipIf_M (b : Bool) : (s.skipIf b).M = s.M := by cases b <;> rfl
@[simp] theorem State.skipIf_K (b : Bool) : (s.skipIf b).K = s.K := by cases b <;> rfl
@[simp] theorem State.skipIf_F (b : Bool) : (s.skipIf b).F = s.F := by cases b <;> rfl
@[simp] theorem State.skipIf_cfg (b : Bool) : (s.skipIf b).cfg = s.cfg := by cases b <;> rfl
@[simp] theorem State.skipIf_draws (b : Bool) : (s.skipIf b).draws = s.draws := by cases b <;> rfl
@[simp] theorem State.skipIf_agenda (b : Bool) : (s.skipIf b).agenda = s.agenda := by cases b <;> rfl

/-! ### loadRegs: registers only -/

@[simp] theorem State.loadRegs_V (bs : List Byte) : (s.loadRegs bs).V = loadFile s.V 0 bs := rfl
@[simp] theorem State.loadRegs_I (bs : List Byte) : (s.loadRegs bs).I = s.I := rfl
@[simp] theorem State.loadRegs_pc (bs : List Byte) : (s.loadRegs bs).pc = s.pc := rfl
@[simp] theorem State.loadRegs_S (bs : List Byte) : (s.loadRegs bs).S = s.S := rfl
@[simp] theorem State.loadRegs_DT (bs : List Byte) : (s.loadRegs bs).DT = s.DT := rfl
@[simp] theorem State.loadRegs_ST (bs : List Byte) : (s.loadRegs bs).ST = s.ST := rfl
@[simp] theorem State.loadRegs_P (bs : List Byte) : (s.loadRegs bs).P = s.P := rfl
@[simp] theorem State.loadRegs_M (bs : List Byte) : (s.loadRegs bs).M = s.M := rfl
@[simp] theorem State.loadRegs_K (bs : List Byte) : (s.loadRegs bs).K = s.K := rfl
@[simp] theorem State.loadRegs_F (bs : List Byte) : (s.loadRegs bs).F = s.F := rfl
@[simp] theorem State.loadRegs_cfg (bs : List Byte) : (s.loadRegs bs).cfg = s.cfg := rfl
@[simp] theorem State.loadRegs_draws (bs : List Byte) : (s.loadRegs bs).draws = s.draws := rfl
@[simp] theorem State.loadRegs_agenda (bs : List Byte) : (s.loadRegs bs).agenda = s.agenda := rfl

/-! ### offer: the agenda only -/

@[simp] theorem State.offer_V (t : Turn) : (s.offer t).V = s.V := rfl
@[simp] theorem State.offer_I (t : Turn) : (s.offer t).I = s.I := rfl
@[simp] theorem State.offer_pc (t : Turn) : (s.offer t).pc = s.pc := rfl
@[simp] theorem State.offer_S (t : Turn) : (s.offer t).S = s.S := rfl
@[simp] theorem State.offer_DT (t : Turn) : (s.offer t).DT = s.DT := rfl
@[simp] theorem State.offer_ST (t : Turn) : (s.offer t).ST = s.ST := rfl
@[simp] theorem State.offer_P (t : Turn) : (s.offer t).P = s.P := rfl
@[simp] theorem State.offer_M (t : Turn) : (s.offer t).M = s.M := rfl
@[simp] theorem State.offer_K (t : Turn) : (s.offer t).K = s.K := rfl
@[simp] theorem State.offer_F (t : Turn) : (s.offer t).F = s.F := rfl
@[simp] theorem State.offer_cfg (t : Turn) : (s.offer t).cfg = s.cfg := rfl
@[simp] theorem State.offer_draws (t : Turn) : (s.offer t).draws = s.draws := rfl
@[simp] theorem State.offer_agenda (t : Turn) : (s.offer t).agenda = s.agenda ++ [t] := rfl

/-- An offer to a state with no turn to come: that turn is next, and taking it gives the state back. -/
theorem State.offer_nextTurn (h : s.agenda = []) (t : Turn) : (s.offer t).nextTurn = t := by
  simp [State.nextTurn, h]
theorem State.offer_takeTurn (h : s.agenda = []) (t : Turn) : (s.offer t).takeTurn = s := by
  cases s; simp_all [State.offer, State.takeTurn]

/-! ### faultOutput -/

@[simp] theorem State.faultOutput_none (h : s.F = none) : s.faultOutput = none := by simp [State.faultOutput, h]
@[simp] theorem State.faultOutput_some {f : FaultRecord} (h : s.F = some f) : s.faultOutput = some f.report := by
  simp [State.faultOutput, h]
theorem FaultCode.number_inj {c d : FaultCode} (h : c.number = d.number) : c = d := by
  cases c <;> cases d <;> first | rfl | cases h
theorem FaultCode.number_range (c : FaultCode) : 1 ≤ c.number ∧ c.number ≤ 6 := by cases c <;> decide

end

end Sys2Proof.Machine
end

