-- ==== Sys2Proof/Laws/Regs.lean ====
section
/-! SUPPORT. The register file: reading after each operation that writes it. -/

namespace Sys2Proof.Machine

variable (s : State)

theorem regIndex_inj {x y : Nibble} : ((regIndex x : Fin 16) : Nat) = regIndex y ↔ x = y :=
  ⟨fun h => BitVec.eq_of_toNat_eq h, fun h => by rw [h]⟩

/-- Reading a register after a write. -/
theorem State.reg_setReg (x r : Nibble) (v : Byte) : (s.setReg x v).reg r = if r = x then v else s.reg r := by
  simp only [State.reg, State.setReg, Fin.getElem_fin, Vector.getElem_set, regIndex_inj, eq_comm (a := x)]

@[simp] theorem State.reg_setReg_same (x : Nibble) (v : Byte) : (s.setReg x v).reg x = v := by simp [reg_setReg]

theorem State.reg_setReg_ne {x r : Nibble} (v : Byte) (h : r ≠ x) : (s.setReg x v).reg r = s.reg r := by
  simp [reg_setReg, h]

/-- The flag is written last. -/
theorem State.reg_setRegFlag (x r : Nibble) (v f : Byte) :
    (s.setRegFlag x v f).reg r = if r = flagReg then f else if r = x then v else s.reg r := by
  simp [State.setRegFlag, reg_setReg]

@[simp] theorem State.reg_advance (r : Nibble) : s.advance.reg r = s.reg r := rfl
@[simp] theorem State.reg_jumpTo (a : Word) (r : Nibble) : (s.jumpTo a).reg r = s.reg r := rfl
@[simp] theorem State.reg_push (a : Word) (r : Nibble) : (s.push a).reg r = s.reg r := rfl
@[simp] theorem State.reg_raise (c : FaultCode) (w : Option Word) (a : Option Nat) (r : Nibble) :
    (s.raise c w a).reg r = s.reg r := rfl
@[simp] theorem State.reg_skipIf (b : Bool) (r : Nibble) : (s.skipIf b).reg r = s.reg r := by cases b <;> rfl

theorem loadFile_getElem (v : Vector Byte 16) (k : Nat) (bs : List Byte) (r : Nibble) (h : k + bs.length ≤ 16) :
    (loadFile v k bs)[regIndex r] =
      if k ≤ r.toNat ∧ r.toNat < k + bs.length then bs.getD (r.toNat - k) 0#8 else v[regIndex r] := by
  induction bs generalizing v k with
  | nil => simp [loadFile, show ¬ (k ≤ r.toNat ∧ r.toNat < k) by omega]
  | cons b bs ih =>
    simp only [List.length_cons] at h ⊢
    rw [loadFile, ih _ _ (by omega)]
    have hr : r = BitVec.ofNat 4 k ↔ r.toNat = k := by
      constructor
      · rintro rfl; simp; omega
      · rintro rfl; simp
    simp only [Fin.getElem_fin, Vector.getElem_set, regIndex_inj, eq_comm (a := BitVec.ofNat 4 k)]
    rcases Nat.lt_trichotomy r.toNat k with h1 | h1 | h1
    · rw [if_neg (by omega), if_neg (by rw [hr]; omega), if_neg (by omega)]
    · rw [if_neg (by omega), if_pos (hr.mpr h1), if_pos (by omega), h1]; simp
    · obtain ⟨j, hj⟩ : ∃ j, r.toNat = k + 1 + j := ⟨r.toNat - (k + 1), by omega⟩
      have e : r.toNat - k = j + 1 := by omega
      have e' : r.toNat - (k + 1) = j := by omega
      by_cases hl : j < bs.length
      · rw [if_pos (by omega), if_pos (by omega), e, e']; simp
      · rw [if_neg (by omega), if_neg (by rw [hr]; omega), if_neg (by omega)]

/-- A register after a bulk load of at most 16 bytes. -/
theorem State.reg_loadRegs (bs : List Byte) (r : Nibble) (h : bs.length ≤ 16) :
    (s.loadRegs bs).reg r = if r.toNat < bs.length then bs.getD r.toNat 0#8 else s.reg r := by
  have e := loadFile_getElem s.V 0 bs r (by omega)
  simpa [State.reg, State.loadRegs] using e

theorem State.regsUpTo_length (x : Nibble) : (s.regsUpTo x).length = x.toNat + 1 := by simp [State.regsUpTo]

/-- The k-th byte of V0..Vx. -/
theorem State.regsUpTo_getD (x : Nibble) (k : Nat) (h : k ≤ x.toNat) :
    (s.regsUpTo x).getD k 0#8 = s.reg (BitVec.ofNat 4 k) := by
  simp [State.regsUpTo, List.getD, show k < x.toNat + 1 by omega]

end Sys2Proof.Machine
end

