-- ==== Sys2Proof/Laws/Step.lean ====
section
/-! SUPPORT. What a step, an engine step, a checked access and an endless run can do, said once. -/

namespace Sys2Proof.Machine

variable {s t : State}

/-- A checked data access: the fault when the highest address is out of range, else its effect. -/
theorem checked_next {i : Instr} {hi : Nat} {done : State} (h : checked s i hi done = .next t) :
    (hi ≤ topAddr ∧ t = done) ∨
      (topAddr < hi ∧ t = s.raise .addressOutOfRangeData (some (encode i)) (some hi)) := by
  unfold checked at h
  split at h
  · rename_i hh; exact .inr ⟨hh, by simpa using h.symm⟩
  · rename_i hh; exact .inl ⟨by omega, by simpa using h.symm⟩

theorem checked_in {i : Instr} {hi : Nat} {done : State} (h : hi ≤ topAddr) : checked s i hi done = .next done := by
  simp [checked, show ¬ hi > topAddr by omega]

theorem checked_out {i : Instr} {hi : Nat} {done : State} (h : topAddr < hi) :
    checked s i hi done = .next (s.raise .addressOutOfRangeData (some (encode i)) (some hi)) := by
  simp [checked, h]

/-- The fetch's two cases. -/
theorem State.fetch_in (h : s.pc.toNat + 1 ≤ topAddr) : s.fetch = some (s.M.wordAt s.pc.toNat) := by
  simp [State.fetch, State.fetchable, h]

theorem State.fetch_out (h : topAddr < s.pc.toNat + 1) : s.fetch = none := by
  simp [State.fetch, State.fetchable, show ¬ s.pc.toNat + 1 ≤ topAddr by omega]

/-- No instruction stops the machine: a fault is a next state with F set. -/
theorem exec_next (i : Instr) (s : State) : ∃ t, exec i s = .next t := by
  have hc : ∀ i hi done, ∃ t, checked s i hi done = .next t := by
    intro i hi done; unfold checked; split <;> exact ⟨_, rfl⟩
  cases i <;> simp only [exec] <;> try exact ⟨_, rfl⟩
  case ret => unfold execRet; split <;> exact ⟨_, rfl⟩
  case call => unfold execCall; split <;> exact ⟨_, rfl⟩
  case drw => unfold execDrw; dsimp only; split; exacts [⟨_, rfl⟩, hc _ _ _]
  case ldVxK => unfold execLdVxK; split <;> exact ⟨_, rfl⟩
  case addI => unfold execAddI; dsimp only; split <;> exact ⟨_, rfl⟩
  case ldB => exact hc _ _ _
  case storeRegs => exact hc _ _ _
  case loadRegs => exact hc _ _ _

/-- An outcome with the agenda of its next state replaced. -/
def replaceAgenda (a : List Turn) : Host.Outcome State Fault Refusal → Host.Outcome State Fault Refusal
  | .next t => .next { t with agenda := a }
  | .fault r => .fault r
  | .refused r => .refused r

/-- An instruction neither reads nor writes the agenda. -/
theorem exec_withAgenda (i : Instr) (s : State) (a : List Turn) :
    exec i { s with agenda := a } = replaceAgenda a (exec i s) := by
  have hc : ∀ i hi (done done' : State), done' = { done with agenda := a } →
      checked { s with agenda := a } i hi done' = replaceAgenda a (checked s i hi done) := by
    rintro i hi done _ rfl; unfold checked; split <;> rfl
  have hs : ∀ b, { s with agenda := a }.skipIf b = { s.skipIf b with agenda := a } := by intro b; cases b <;> rfl
  cases i <;> simp only [exec]
  case ret => unfold execRet; dsimp only; split <;> rfl
  case call => unfold execCall State.stackFull; dsimp only; split <;> rfl
  case drw x y n =>
    unfold execDrw; dsimp only; split
    · rfl
    · exact hc _ _ _ _ rfl
  case ldVxK =>
    have hk : { s with agenda := a }.firstKeyDown = s.firstKeyDown := rfl
    unfold execLdVxK; rw [hk]; split <;> rfl
  case addI =>
    have hr : ∀ r, { s with agenda := a }.reg r = s.reg r := fun _ => rfl
    unfold execAddI; simp only [hr]; split <;> rfl
  case ldB => unfold execLdB; exact hc _ _ _ _ rfl
  case storeRegs => unfold execStoreRegs; exact hc _ _ _ _ rfl
  case loadRegs => unfold execLoadRegs; exact hc _ _ _ _ rfl
  case seImm => exact congrArg Host.Outcome.next (hs _)
  case sneImm => exact congrArg Host.Outcome.next (hs _)
  case seReg => exact congrArg Host.Outcome.next (hs _)
  case sneReg => exact congrArg Host.Outcome.next (hs _)
  case skp => exact congrArg Host.Outcome.next (hs _)
  case sknp => exact congrArg Host.Outcome.next (hs _)
  all_goals rfl

/-- Everything an engine step that answers a next state can be. -/
theorem engineStep_next (h : engineStep s = .next t) :
    s.F = none ∧
      ((s.fetch = none ∧ t = s.raise .addressOutOfRangeFetch none none) ∨
        ∃ w, s.fetch = some w ∧
          ((∃ e, decode w = .error e ∧ t = s.raise .unknownInstruction (some w) none) ∨
            ∃ i, decode w = .ok i ∧ exec i s = .next t)) := by
  unfold engineStep at h
  split at h
  · cases h
  · rename_i hF
    refine ⟨hF, ?_⟩
    split at h
    · rename_i hf; exact .inl ⟨hf, by simpa using h.symm⟩
    · rename_i w hw
      refine .inr ⟨w, hw, ?_⟩
      split at h
      · rename_i e he; exact .inl ⟨e, he, by simpa using h.symm⟩
      · rename_i i hi; exact .inr ⟨i, hi, h⟩

/-- Everything a step that answers a next state can be. -/
theorem step_next (h : step s = .next t) :
    (s.nextTurn = .engine ∧ engineStep s.takeTurn = .next t) ∨
    (s.nextTurn = .tick ∧ t = s.takeTurn.tick) ∨
    (∃ k, s.nextTurn = .keypad k ∧ t = s.takeTurn.replaceKeypad k) ∨
    ((s.nextTurn = .readGrid ∨ s.nextTurn = .editThrottle) ∧ t = s.takeTurn) := by
  unfold step turnStep at h
  split at h <;> rename_i hn
  · exact .inl ⟨hn, h⟩
  · exact .inr (.inl ⟨hn, by simpa using h.symm⟩)
  · exact .inr (.inr (.inl ⟨_, hn, by simpa using h.symm⟩))
  · exact .inr (.inr (.inr ⟨.inl hn, by simpa using h.symm⟩))
  · exact .inr (.inr (.inr ⟨.inr hn, by simpa using h.symm⟩))
  · cases h

/-- No agent's step reads or writes the agenda. -/
theorem turnStep_withAgenda (t : Turn) (s : State) (a : List Turn) :
    turnStep t { s with agenda := a } = replaceAgenda a (turnStep t s) := by
  cases t <;> try rfl
  show engineStep _ = replaceAgenda a (engineStep s)
  unfold engineStep
  rw [show ({ s with agenda := a } : State).fetch = s.fetch from rfl]
  dsimp only
  split
  · rfl
  · split
    · rfl
    · split
      · rfl
      · exact exec_withAgenda _ _ _

/-- One step of a run of k + 1. -/
theorem run_next {M : Host.Core} {s t : M.State} {k : Nat} (h : M.step s = .next t) : M.run (k + 1) s = M.run k t := by
  simp only [Host.Core.run, h]

variable {order : Nat → Turn} {state : Nat → State}

/-- Between the steps of an endless run no turn is waiting. -/
theorem Run.agenda (h : Run order state) (n : Nat) : (state n).agenda = [] := by
  induction n with
  | zero => exact h.start
  | succ n ih =>
    have e := turnStep_withAgenda (order n) (state n) []
    rw [show ({ state n with agenda := [] } : State) = state n by rw [← ih]] at e
    have hn := h.next n
    rw [step, State.offer_nextTurn _ ih, State.offer_takeTurn _ ih] at hn
    rw [hn] at e
    simp only [replaceAgenda, Host.Outcome.next.injEq] at e
    rw [e]

/-- Step n of an endless run is the step of the agent `order n` names. -/
theorem Run.turn (h : Run order state) (n : Nat) : turnStep (order n) (state n) = .next (state (n + 1)) := by
  have hn := h.next n
  rwa [step, State.offer_nextTurn _ (h.agenda n), State.offer_takeTurn _ (h.agenda n)] at hn

end Sys2Proof.Machine
end

