-- ==== Sys2Proof/Tests/Slice0.lean ====
section
/-! SUPPORT. Tests. Expected results are those of spec/95_test_vectors.md (V-*, S*) and the examples of the rules themselves;
then a witness for each statement with hypotheses. -/

namespace Sys2Proof.Tests

open Sys2Proof.Machine

/-! ## WellFormed -/

/-- 30_encoding.md R75: 0x00E0 is CLS, never SYS. -/
theorem test_wellFormed_refuses_sys_0E0 : (Instr.sys 0x0E0#12).wellFormed = false := by decide
/-- R75: 0x00EE is RET, never SYS. -/
theorem test_wellFormed_refuses_sys_0EE : (Instr.sys 0x0EE#12).wellFormed = false := by decide
theorem test_wellFormed_accepts_sys : (Instr.sys 0x0E1#12).wellFormed = true := by decide

/-! ## Decoding, one word of each constructor (30_encoding.md R74) -/

theorem test_decode_display : decode 0x00E0#16 = .ok .cls ∧ decode 0xD12F#16 = .ok (.drw 0x1#4 0x2#4 0xF#4) := by decide

theorem test_decode_control :
    decode 0x00EE#16 = .ok .ret ∧ decode 0x00E1#16 = .ok (.sys 0x0E1#12) ∧ decode 0x1234#16 = .ok (.jp 0x234#12) ∧
    decode 0x2300#16 = .ok (.call 0x300#12) ∧ decode 0xB220#16 = .ok (.jpV0 0x220#12) := by decide

theorem test_decode_skips :
    decode 0x3310#16 = .ok (.seImm 0x3#4 0x10#8) ∧ decode 0x4311#16 = .ok (.sneImm 0x3#4 0x11#8) ∧
    decode 0x5120#16 = .ok (.seReg 0x1#4 0x2#4) ∧ decode 0x9AB0#16 = .ok (.sneReg 0xA#4 0xB#4) := by decide

theorem test_decode_loads :
    decode 0x6A42#16 = .ok (.ldImm 0xA#4 0x42#8) ∧ decode 0x7102#16 = .ok (.addImm 0x1#4 0x02#8) ∧
    decode 0xC10F#16 = .ok (.rnd 0x1#4 0x0F#8) := by decide

theorem test_decode_class8 :
    decode 0x8120#16 = .ok (.ldReg 0x1#4 0x2#4) ∧ decode 0x8121#16 = .ok (.orReg 0x1#4 0x2#4) ∧
    decode 0x8122#16 = .ok (.andReg 0x1#4 0x2#4) ∧ decode 0x8123#16 = .ok (.xorReg 0x1#4 0x2#4) ∧
    decode 0x8124#16 = .ok (.addReg 0x1#4 0x2#4) ∧ decode 0x8125#16 = .ok (.subReg 0x1#4 0x2#4) ∧
    decode 0x8126#16 = .ok (.shrReg 0x1#4 0x2#4) ∧ decode 0x8127#16 = .ok (.subnReg 0x1#4 0x2#4) ∧
    decode 0x812E#16 = .ok (.shlReg 0x1#4 0x2#4) := by decide

theorem test_decode_index :
    decode 0xA2F0#16 = .ok (.ldI 0x2F0#12) ∧ decode 0xF11E#16 = .ok (.addI 0x1#4) ∧ decode 0xF129#16 = .ok (.ldF 0x1#4) ∧
    decode 0xF133#16 = .ok (.ldB 0x1#4) ∧ decode 0xF255#16 = .ok (.storeRegs 0x2#4) ∧
    decode 0xF265#16 = .ok (.loadRegs 0x2#4) := by decide

theorem test_decode_keys_timers :
    decode 0xE29E#16 = .ok (.skp 0x2#4) ∧ decode 0xE2A1#16 = .ok (.sknp 0x2#4) ∧ decode 0xF307#16 = .ok (.ldVxDT 0x3#4) ∧
    decode 0xF50A#16 = .ok (.ldVxK 0x5#4) ∧ decode 0xF115#16 = .ok (.ldDTVx 0x1#4) ∧
    decode 0xF118#16 = .ok (.ldSTVx 0x1#4) := by decide

/-- V-DEC-6 to V-DEC-12. -/
theorem test_decode_illegal :
    [0x5121#16, 0x9121#16, 0x8008#16, 0x800F#16, 0xE09F#16, 0xF000#16, 0xFFFF#16].all
      (fun w => decode w == .error (.unknownInstruction w)) = true := by decide

/-- S1: bytes 0x12, 0x34. -/
theorem test_fields_S1 :
    Word.nnn 0x1234#16 = 0x234#12 ∧ Word.nn 0x1234#16 = 0x34#8 ∧ Word.op 0x1234#16 = 1#4 ∧ Word.x 0x1234#16 = 2#4 ∧
    Word.y 0x1234#16 = 3#4 ∧ Word.n 0x1234#16 = 4#4 := by decide

theorem test_decodeTableWord : decodeTableWord 16 0xF265 = some (.loadRegs 0x2#4) ∧ decodeTableWord 16 0x5121 = none := by
  decide

/-! ## One step of one word at 0x200 -/

/-- Whether the step of a state that fetches this word answers a state with the property. -/
def runs (s : State) (w : Nat) (p : State → Bool) : Bool :=
  match step (s.withFetchWord 16 w) with
  | .next t => p t
  | _ => false

/-- The state after reset with some registers set. -/
def withRegs (rs : List (Nibble × Byte)) : State := rs.foldl (fun s r => s.setReg r.1 r.2) State.reset

/-- With I and some bytes from I on. -/
def withData (s : State) (i : Addr) (bs : List Byte) : State := { s with I := i, M := s.M.writeBytes i.toNat bs }

/-- With the three behavioural quirk flags set. -/
def quirky (s : State) : State := { s with cfg := { s.cfg with qShiftY := true, qJumpVx := true, qIndexInc := true } }

/-- The fault record of a step at 0x200. -/
def faults (s : State) (w : Nat) (code : FaultCode) (addr : Option Nat) : Bool :=
  runs s w (fun t => t.F == some ⟨code, 0x200#16, some (tableWord 16 w), addr⟩ && t.pc == 0x200#16)

/-- V-DISP-1 -/
theorem test_cls : runs { withRegs [(0xF, 0x07)] with P := Vector.replicate 32 0xFFFF#64 } 0x00E0
    (fun t => t.P == Grid.clear && t.reg 0xF == 0x07#8 && t.pc == 0x202#16) = true := by decide
/-- S8: columns 60 to 63 only. -/
theorem test_drw_clips : runs (withData (withRegs [(0, 60)]) 0x300 [0xFF]) 0xD011
    (fun t => t.P.row 0 == 0xF000000000000000#64 && t.P.row 1 == 0#64 && t.reg 0xF == 0#8) = true := by decide
/-- V-DISP-9 -/
theorem test_drw_collides : runs { withData State.reset 0x300 [0xC0] with P := Grid.clear.set 0 2#64 } 0xD011
    (fun t => t.P.row 0 == 1#64 && t.reg 0xF == 1#8) = true := by decide
/-- V-DISP-6 -/
theorem test_drw_faults : faults (withData (withRegs [(0xF, 0x42)]) 0xFFE []) 0xD013 .addressOutOfRangeData (some 0x1000) = true := by
  decide

/-- V-CF-3 -/
theorem test_ret : runs { State.reset with S := [0x202] } 0x00EE (fun t => t.pc == 0x202#16 && t.S == []) = true := by decide
/-- V-CF-4 -/
theorem test_ret_underflow : faults State.reset 0x00EE .stackUnderflow none = true := by decide
/-- V-DEC-5 -/
theorem test_sys : faults State.reset 0x00E1 .legacyMachineCode none = true := by decide
/-- V-CF-1 -/
theorem test_jp : runs State.reset 0x1234 (fun t => t.pc == 0x234#16) = true := by decide
/-- V-CF-2 -/
theorem test_call : runs State.reset 0x2300 (fun t => t.S == [0x202] && t.pc == 0x300#16) = true := by decide
/-- R113 with a bound of 0. -/
theorem test_call_overflow :
    faults { State.reset with cfg := { hardwareConfig with stackLimit := some 0 } } 0x2300 .stackOverflow none = true := by decide
/-- V-CF-5, V-CF-6 -/
theorem test_seImm : runs (withRegs [(3, 0x10)]) 0x3310 (fun t => t.pc == 0x204#16) = true ∧
    runs (withRegs [(3, 0x11)]) 0x3310 (fun t => t.pc == 0x202#16) = true := by decide
/-- V-CF-7, V-CF-8 -/
theorem test_sneImm : runs (withRegs [(3, 0x11)]) 0x4310 (fun t => t.pc == 0x204#16) = true ∧
    runs (withRegs [(3, 0x10)]) 0x4310 (fun t => t.pc == 0x202#16) = true := by decide
/-- V-CF-9 -/
theorem test_seReg : runs (withRegs [(1, 7), (2, 7)]) 0x5120 (fun t => t.pc == 0x204#16) = true := by decide
/-- V-CF-11 -/
theorem test_sneReg : runs (withRegs [(1, 7), (2, 8)]) 0x9120 (fun t => t.pc == 0x204#16) = true := by decide
/-- V-CF-13, V-CF-14 -/
theorem test_jpV0 : runs (withRegs [(0, 4), (2, 0x10)]) 0xB220 (fun t => t.pc == 0x224#16) = true ∧
    runs (quirky (withRegs [(0, 4), (2, 0x10)])) 0xB220 (fun t => t.pc == 0x230#16) = true := by decide
/-- V-CF-15 -/
theorem test_jpV0_no_wrap : runs (withRegs [(0, 0xFF)]) 0xBFFF (fun t => t.pc == 0x10FE#16) = true := by decide

/-- V-ALU-1 -/
theorem test_ldImm : runs State.reset 0x6A42 (fun t => t.reg 0xA == 0x42#8) = true := by decide
/-- V-ALU-3 -/
theorem test_addImm : runs (withRegs [(1, 0xFF), (0xF, 0x55)]) 0x7102
    (fun t => t.reg 1 == 1#8 && t.reg 0xF == 0x55#8) = true := by decide
/-- V-ALU-5 -/
theorem test_ldReg : runs (withRegs [(2, 0x99)]) 0x8120 (fun t => t.reg 1 == 0x99#8) = true := by decide
/-- V-ALU-6 -/
theorem test_orReg : runs (withRegs [(1, 0x0F), (2, 0xF0), (0xF, 1)]) 0x8121
    (fun t => t.reg 1 == 0xFF#8 && t.reg 0xF == 0#8) = true := by decide
/-- V-ALU-10 -/
theorem test_orReg_flag_last : runs (withRegs [(0xF, 1), (2, 0xF0)]) 0x8F21 (fun t => t.reg 0xF == 0#8) = true := by decide
/-- V-ALU-7 -/
theorem test_andReg : runs (withRegs [(1, 0x3C), (2, 0x0F), (0xF, 1)]) 0x8122
    (fun t => t.reg 1 == 0x0C#8 && t.reg 0xF == 0#8) = true := by decide
/-- V-ALU-8 -/
theorem test_xorReg : runs (withRegs [(1, 0xFF), (2, 0x0F)]) 0x8123
    (fun t => t.reg 1 == 0xF0#8 && t.reg 0xF == 0#8) = true := by decide
/-- S2 -/
theorem test_addReg : runs (withRegs [(1, 0xFF), (2, 2)]) 0x8124 (fun t => t.reg 1 == 1#8 && t.reg 0xF == 1#8) = true := by
  decide
/-- V-ALU-12 -/
theorem test_addReg_flag_last : runs (withRegs [(1, 0xF5), (0xF, 0x10)]) 0x8F14 (fun t => t.reg 0xF == 1#8) = true := by decide
/-- S5 -/
theorem test_subReg : runs (withRegs [(1, 3), (2, 5)]) 0x8125 (fun t => t.reg 1 == 0xFE#8 && t.reg 0xF == 0#8) = true := by
  decide
/-- V-ALU-14 -/
theorem test_subReg_equal : runs (withRegs [(1, 0x42)]) 0x8115 (fun t => t.reg 1 == 0#8 && t.reg 0xF == 1#8) = true := by decide
/-- V-ALU-19, V-ALU-20 -/
theorem test_shrReg : runs (withRegs [(1, 5), (2, 0x80)]) 0x8126 (fun t => t.reg 1 == 2#8 && t.reg 0xF == 1#8) = true ∧
    runs (quirky (withRegs [(1, 5), (2, 0x80)])) 0x8126
      (fun t => t.reg 1 == 0x40#8 && t.reg 0xF == 0#8 && t.reg 2 == 0x80#8) = true := by decide
/-- V-ALU-18 -/
theorem test_subnReg : runs (withRegs [(1, 5), (2, 3)]) 0x8127 (fun t => t.reg 1 == 0xFE#8 && t.reg 0xF == 0#8) = true := by
  decide
/-- V-ALU-22, V-ALU-23 -/
theorem test_shlReg : runs (withRegs [(1, 0x81), (2, 1)]) 0x812E (fun t => t.reg 1 == 2#8 && t.reg 0xF == 1#8) = true ∧
    runs (quirky (withRegs [(1, 0x81), (2, 1)])) 0x812E (fun t => t.reg 1 == 2#8 && t.reg 0xF == 0#8) = true := by decide
/-- V-ALU-25: `C100` gives 0 whatever the draw. -/
theorem test_rnd_masked (s : State) : ∃ t, exec (.rnd 0x1#4 0x00#8) s = .next t ∧ t.V = (s.setReg 0x1#4 0x00#8).V :=
  ⟨_, rfl, by simp [State.advance]⟩

/-- V-MEM-1 -/
theorem test_ldI : runs State.reset 0xA2F0 (fun t => t.I == 0x2F0#12) = true := by decide
/-- V-MEM-2 -/
theorem test_addI_wraps : runs { withRegs [(1, 3)] with I := 0xFFE } 0xF11E (fun t => t.I == 1#12 && t.reg 0xF == 1#8) = true := by
  decide
/-- V-MEM-3 -/
theorem test_addI_keeps_flag : runs { withRegs [(1, 3), (0xF, 7)] with I := 0x100 } 0xF11E
    (fun t => t.I == 0x103#12 && t.reg 0xF == 7#8) = true := by decide
/-- V-MEM-6 -/
theorem test_ldF : runs (withRegs [(1, 0x1A)]) 0xF129 (fun t => t.I == 0x082#12) = true := by decide
/-- V-MEM-9 -/
theorem test_ldB : runs { withRegs [(1, 255)] with I := 0x300 } 0xF133
    (fun t => t.M.readBytes 0x300 3 == [2, 5, 5] && t.I == 0x300#12) = true := by decide
/-- V-MEM-10 -/
theorem test_ldB_faults : faults { State.reset with I := 0xFFE } 0xF133 .addressOutOfRangeData (some 0x1000) = true := by decide
/-- V-MEM-11 -/
theorem test_storeRegs : runs (quirky { withRegs [(0, 0x77)] with I := 0xFFF }) 0xF055
    (fun t => t.M.read 0xFFF == 0x77#8 && t.I == 0#12) = true := by decide
/-- V-MEM-12 -/
theorem test_storeRegs_faults : faults { State.reset with I := 0xFF1 } 0xFF55 .addressOutOfRangeData (some 0x1000) = true := by
  decide
/-- V-MEM-14 -/
theorem test_loadRegs : runs (quirky (withData State.reset 0x300 [7, 8, 9])) 0xF265
    (fun t => t.reg 0 == 7#8 && t.reg 1 == 8#8 && t.reg 2 == 9#8 && t.I == 0x303#12) = true := by decide
/-- R155: loading from the font reads glyph bytes (default FONT of R33): glyph 7. -/
theorem test_loadRegs_font : runs { State.reset with I := 0x073 } 0xF465
    (fun t => t.reg 0 == 0xF0#8 && t.reg 1 == 0x10#8 && t.reg 2 == 0x20#8 && t.reg 3 == 0x40#8 && t.reg 4 == 0x40#8) = true := by
  decide

/-- The keypad with these keys down. -/
def keysDown (ks : List Nat) : Vector Bool 16 := Vector.ofFn (fun k => ks.contains k.val)

/-- V-TK-3, V-TK-2 -/
theorem test_skp : runs { withRegs [(2, 0x13)] with K := keysDown [3] } 0xE29E (fun t => t.pc == 0x204#16) = true ∧
    runs (withRegs [(2, 5)]) 0xE29E (fun t => t.pc == 0x202#16) = true := by decide
/-- V-TK-4, V-TK-5 -/
theorem test_sknp : runs (withRegs [(2, 5)]) 0xE2A1 (fun t => t.pc == 0x204#16) = true ∧
    runs { withRegs [(2, 5)] with K := keysDown [5] } 0xE2A1 (fun t => t.pc == 0x202#16) = true := by decide
/-- V-TK-6 -/
theorem test_ldVxDT : runs { State.reset with DT := 0x3C } 0xF307 (fun t => t.reg 3 == 0x3C#8 && t.DT == 0x3C#8) = true := by
  decide
/-- V-TK-7 -/
theorem test_ldVxK : runs { State.reset with K := keysDown [9, 3] } 0xF10A (fun t => t.reg 1 == 3#8 && t.pc == 0x202#16) = true := by
  decide
/-- S11 -/
theorem test_ldVxK_waits : runs { withRegs [(5, 9)] with pc := 0x208 } 0xF50A
    (fun t => t.reg 5 == 9#8 && t.pc == 0x208#16) = true := by decide
/-- V-TK-9 -/
theorem test_ldDTVx : runs (withRegs [(1, 60)]) 0xF115 (fun t => t.DT == 60#8) = true := by decide
/-- V-TK-10 -/
theorem test_ldSTVx : runs (withRegs [(1, 5)]) 0xF118 (fun t => t.ST == 5#8) = true := by decide

/-! ## The step and the agents -/

/-- V-DEC-8 -/
theorem test_unknown : faults State.reset 0x8008 .unknownInstruction none = true := by decide
/-- V-EXC-1: the whole state but F is as before. -/
theorem test_fetch_fault : step { State.reset with pc := 0xFFF } =
    .next { State.reset with pc := 0xFFF, F := some ⟨.addressOutOfRangeFetch, 0xFFF, none, none⟩ } := rfl
/-- V-EXC-2 -/
theorem test_fetch_top : runs { State.reset with pc := 0xFFE } 0x1200 (fun t => t.pc == 0x200#16) = true := by decide
/-- V-TK-12, V-TK-11 -/
theorem test_tick : (({ State.reset with DT := 5, ST := 2 } : State).tick.DT, ({ State.reset with DT := 5, ST := 2 } : State).tick.ST) =
    (4#8, 1#8) ∧ State.reset.tick = State.reset := by decide
/-- Writing a byte its address reads as unlisted keeps memory canonical: the default font over nothing lists nothing. -/
theorem test_font_is_unlisted : Memory.writeBytes [] 0x050 defaultFont = [] := by decide
theorem test_hardwareConfig_wf : hardwareConfig.wf := by decide
/-- R190: a launch with the hardware's configuration, nothing chosen and no program is the state after reset. -/
theorem test_launch_is_reset : State.launch hardwareConfig 0 [] [] [] = some State.reset := by decide +kernel

/-! ## Witnesses: a state and operands that meet all hypotheses of each statement that has some -/

/-- A state at 0x200 with word `w` there. -/
def atWord (w : Nat) : State := State.reset.withFetchWord 16 w

/-- I at a given address. -/
def withI (i : Addr) : State := { State.reset with I := i }

theorem witness_DecodeOfEncode : (Instr.sys 0x0EF#12).wellFormed = true ∧ (Instr.loadRegs 0xF#4).wellFormed = true := by decide
theorem witness_EncodeOfDecode : decode 0xFF65#16 = .ok (.loadRegs 0xF#4) ∧ decode 0x0000#16 = .ok (.sys 0x000#12) := by decide
/-- The rows of CLS and SYS both select 0x00E0, those of RET and SYS 0x00EE. -/
theorem witness_RowsOverlapOnlyOnSys :
    (opcodeTable[0]?.any (·.selects 0x00E0#16) && opcodeTable[2]?.any (·.selects 0x00E0#16) &&
      opcodeTable[1]?.any (·.selects 0x00EE#16) && opcodeTable[2]?.any (·.selects 0x00EE#16)) = true := by decide
/-- Each illegal class at the edge of its range, and a legal word. -/
theorem witness_IllegalWordsExactly :
    [0x5001#16, 0x5FFF#16, 0x9001#16, 0x8008#16, 0x8FFF#16, 0xE09D#16, 0xE0A2#16, 0xF000#16, 0xF066#16].all illegalWord = true ∧
    illegalWord 0x800E#16 = false ∧ illegalWord 0x0000#16 = false := by decide
/-- A word of every row that RowDecodes is stated for matches its row, so no encoding clause is empty. -/
theorem witness_RowDecodes : (opcodeTable.all (fun r => r.selects r.pattern)) = true := by decide

theorem witness_StepRunsDecodedInstruction : (atWord 0x1234).F = none ∧ (atWord 0x1234).nextTurn = .engine ∧
    (atWord 0x1234).pc.toNat + 1 ≤ 0xFFF ∧
    decodeBytes [(atWord 0x1234).M.read (atWord 0x1234).pc.toNat, (atWord 0x1234).M.read ((atWord 0x1234).pc.toNat + 1)] =
      .ok (.jp 0x234#12, []) ∧ (atWord 0x1234).agenda = [] := by decide
theorem witness_FetchIsBigEndian : ({ State.reset with pc := 0xFFE } : State).pc.toNat + 1 ≤ 0xFFF := by decide
theorem witness_FaultsExactlyAsListed : State.reset.F = none ∧ State.reset.nextTurn = .engine := by decide
theorem witness_FaultsArePrecise : (atWord 0x00EE).F = none ∧ (atWord 0x00EE).nextTurn = .engine ∧
    ∃ t f, step (atWord 0x00EE) = .next t ∧ t.F = some f := ⟨by decide, by decide, _, _, rfl, rfl⟩
/-- A halted state, with the engine's turn and with a tick's. -/
def halted (agenda : List Turn) : State :=
  { State.reset with F := some ⟨.stackUnderflow, 0x200, some 0x00EE, none⟩, agenda := agenda }
theorem witness_HaltIsFinal : (halted []).F.isSome = true ∧ (halted []).nextTurn = .engine ∧
    (halted [.tick]).F.isSome = true ∧ (halted [.tick]).nextTurn = .tick ∧ ∃ t, step (halted [.tick]) = .next t :=
  ⟨by decide, by decide, by decide, by decide, _, rfl⟩
theorem witness_TickDecrementsBoth : ({ State.reset with DT := 1, agenda := [.tick] } : State).nextTurn = .tick := by decide
theorem witness_KeypadReplacedWhole :
    ({ State.reset with agenda := [.keypad (keysDown [7])] } : State).nextTurn = .keypad (keysDown [7]) := by decide
theorem witness_TimersFallByAtMostOne : ∃ t, step { State.reset with DT := 1, agenda := [.tick] } = .next t := ⟨_, rfl⟩
/-- Fx15 with a tick before it, and with a tick after it. -/
theorem witness_TimerWriteRacesTick : (atWord 0xF115).F = none ∧ (atWord 0xF115).fetch = some 0xF115#16 ∧
    decode 0xF115#16 = .ok (.ldDTVx 0x1#4) ∧
    ({ atWord 0xF115 with agenda := [.tick, .engine] } : State).fetch = some 0xF115#16 ∧
    ({ atWord 0xF115 with agenda := [.engine, .tick] } : State).fetch = some 0xF115#16 := by decide
theorem witness_SelfJumpRunsForever : (atWord 0x1200).AtEnd 0x200#12 ∧ (atWord 0x1200).agenda = [] :=
  ⟨⟨by decide, by decide, by decide⟩, by decide⟩

/-- A state that meets the invariant and has a next state. -/
theorem witness_StepKeepsInvariant : (atWord 0x1234).Inv ∧ ∃ t, step (atWord 0x1234) = .next t := by
  have hS : (atWord 0x1234).S = [] := by decide
  have hc : (atWord 0x1234).cfg.stackLimit = none := by decide
  have hF : (atWord 0x1234).F = none := by decide
  refine ⟨⟨by decide +kernel, by decide +kernel, ?_, ?_, ?_⟩, ?_⟩
  · rw [hS]; intro a ha; cases ha
  · rw [hc]; intro k hk; cases hk
  · rw [hF]; intro f hf; cases hf
  · have : (match step (atWord 0x1234) with | .next _ => true | _ => false) = true := by decide +kernel
    revert this
    cases h : step (atWord 0x1234) with
    | next t => intro _; exact ⟨t, rfl⟩
    | fault _ => intro h; cases h
    | refused _ => intro h; cases h
theorem witness_EveryLaunchMeetsInvariant : (State.launch hardwareConfig 0x123 [] [0x12, 0x00] [.tick]).isSome = true := by
  decide +kernel
/-- A program one byte too long, one that ends exactly at 0xFFF, one whose last byte is 0x050 and one whose first is 0x09F, and,
in the launchable ranges, one that ends at 0x04F and one that starts at 0x0A0. -/
theorem witness_LaunchLoadsProgramAndFont : hardwareConfig.wf ∧
    hardwareConfig.loadAddr.toNat + (List.replicate 3585 0x00#8).length > 4096 ∧
    hardwareConfig.loadAddr.toNat + (List.replicate 3584 0x00#8).length ≤ 4096 ∧
    ¬ CoversFont hardwareConfig (List.replicate 3584 0x00#8) ∧
    CoversFont { hardwareConfig with loadAddr := 0x04F } [0x12, 0x00] ∧
    CoversFont { hardwareConfig with loadAddr := 0x09F } [0x12] ∧
    ¬ CoversFont { hardwareConfig with loadAddr := 0x04E } [0x12, 0x00] ∧
    ¬ CoversFont { hardwareConfig with loadAddr := 0x0A0 } [0x12, 0x00] := by
  refine ⟨test_hardwareConfig_wf, by rw [List.length_replicate]; decide, by rw [List.length_replicate]; decide, ?_,
    ⟨1, by decide⟩, ⟨0, by decide⟩, ?_, ?_⟩
  · rintro ⟨k, -, -, h⟩
    have e : hardwareConfig.loadAddr.toNat = 0x200 := rfl
    omega
  · rintro ⟨k, hk, h, -⟩
    have e : ({ hardwareConfig with loadAddr := 0x04E } : Config).loadAddr.toNat = 0x04E := rfl
    have : k < 2 := hk
    omega
  · rintro ⟨k, -, -, h⟩
    have e : ({ hardwareConfig with loadAddr := 0x0A0 } : Config).loadAddr.toNat = 0x0A0 := rfl
    omega
theorem witness_OnlyHostWritesKeys : ∃ t, step { State.reset with agenda := [.keypad (keysDown [7])] } = .next t := ⟨_, rfl⟩
theorem witness_OnlyNamedInstructionsWrite : ∃ t, exec (.ldSTVx 0x1#4) (withRegs [(1, 5)]) = .next t ∧ t.ST ≠ (withRegs [(1, 5)]).ST :=
  ⟨_, rfl, by decide⟩
theorem witness_RegistersWrittenAreTheListed : ∃ t, exec (.ldImm 0xF#4 0x42#8) State.reset = .next t ∧
    t.reg 0xF#4 ≠ State.reset.reg 0xF#4 := ⟨_, rfl, by decide⟩
theorem witness_OtherInstructionsAdvancePc : State.reset.F = none ∧
    (∃ t, exec .cls State.reset = .next t ∧ t.F = none) ∧ ¬ movesPc .cls ∧
    ∃ t, exec (.ldB 0x1#4) (withI 0xFFF) = .next t ∧ t.F ≠ none :=
  ⟨rfl, ⟨_, rfl, rfl⟩, id, _, rfl, by decide⟩
theorem witness_StoresStayInTheirBytes : (∃ t, exec (.ldB 0x1#4) { withRegs [(1, 255)] with I := 0xFFD } = .next t ∧
      t.M.read 0xFFF ≠ State.reset.M.read 0xFFF) ∧
    ∃ t, exec (.storeRegs 0x0#4) { withRegs [(0, 1)] with I := 0xFFF } = .next t ∧ t.M.read 0xFFF ≠ State.reset.M.read 0xFFF :=
  ⟨⟨_, rfl, by decide⟩, _, rfl, by decide⟩

/-- n = 0 with any I, and the highest I a 15-row sprite can have. -/
theorem witness_DrwXorsSprite : SpriteInRange (withI 0xFFF) 0x0#4 ∧ SpriteInRange (withI 0xFF1) 0xF#4 := by
  unfold SpriteInRange; decide
/-- Glyph 0 drawn twice at the origin (V-DISP-8), on the grid the first draw left. -/
theorem witness_DrawingTwiceRestoresGrid : SpriteInRange (withI 0x050) 0x5#4 ∧
    ∃ t, exec (.drw 0x0#4 0x0#4 0x5#4) (withI 0x050) = .next t ∧ t.I = (withI 0x050).I ∧
      (t.reg 0x0#4).toNat % 64 = ((withI 0x050).reg 0x0#4).toNat % 64 ∧
      (t.reg 0x0#4).toNat % 32 = ((withI 0x050).reg 0x0#4).toNat % 32 ∧
      ∀ k, k < (0x5#4).toNat → t.M.read ((withI 0x050).dataAddr k) = (withI 0x050).M.read ((withI 0x050).dataAddr k) :=
  ⟨by unfold SpriteInRange; decide, _, rfl, rfl, by decide, by decide, fun _ _ => rfl⟩
/-- Each clause at the lowest I that faults: highest address 0x1000. -/
theorem witness_DataFaultsChangeNothing : (0xF#4).toNat ≠ 0 ∧ (withI 0xFF2).dataAddr ((0xF#4).toNat - 1) = 0x1000 ∧
    (withI 0xFFE).dataAddr 2 = 0x1000 ∧ (withI 0xFF1).dataAddr (0xF#4).toNat = 0x1000 := by decide

theorem witness_CallPushesReturnAddress : State.reset.cfg.stackLimit ≠ some State.reset.S.length ∧
    ({ State.reset with S := [0x202], cfg := { hardwareConfig with stackLimit := some 1 } } : State).cfg.stackLimit =
      some [0x202#16].length := by decide
theorem witness_RetPopsPc : ({ State.reset with S := [0x202] } : State).S = 0x202 :: [] ∧ State.reset.S = [] := by decide
theorem witness_RetResumesAfterCall : State.reset.cfg.stackLimit ≠ some State.reset.S.length ∧
    ∃ t, exec (.call 0x300#12) State.reset = .next t := ⟨by decide, _, rfl⟩
theorem witness_SysRaisesLegacyFault : 0x00EF#16 &&& 0xF000#16 = 0x0000#16 ∧ 0x00EF#16 ≠ 0x00E0#16 ∧ 0x00EF#16 ≠ 0x00EE#16 := by
  decide
/-- The clause of R112 on nnn = 0xFFF, and of R118 on a target above 0xFFE. -/
theorem witness_JpV0AddsRegister : ∃ t, exec (.jpV0 0xFFF#12) (withRegs [(0, 0)]) = .next t ∧ 0xFFE < t.pc.toNat :=
  ⟨_, rfl, by decide⟩
/-- x other than VF, the premise of the result clauses of the 8xy rows; the flag clauses have none. -/
theorem witness_resultClausesOf8xy : (0xE#4 : Nibble) ≠ 0xF#4 := by decide
theorem witness_ShiftsByOne : (0x05#8 : Byte) =
    (if (withRegs [(1, 5)]).cfg.qShiftY then (withRegs [(1, 5)]).reg 0x2#4 else (withRegs [(1, 5)]).reg 0x1#4) ∧
    (0x80#8 : Byte) = (if (quirky (withRegs [(2, 0x80)])).cfg.qShiftY then (quirky (withRegs [(2, 0x80)])).reg 0x2#4
      else (quirky (withRegs [(2, 0x80)])).reg 0x1#4) := by decide
theorem witness_RndMasksFreeByte : (0x0F#8).getLsbD 7 = false ∧ (0x0F#8).getLsbD 0 = true := by decide

theorem witness_LdBStoresDigits : (withI 0xFFD).dataAddr 2 ≤ 0xFFF := by decide
theorem witness_StoreRegsWritesMemory : (withI 0xFF0).dataAddr (0xF#4).toNat ≤ 0xFFF := by decide
theorem witness_LoadRegsReadsMemory : (withI 0xFFF).dataAddr (0x0#4).toNat ≤ 0xFFF := by decide
theorem witness_StoreThenLoadRestores : (withI 0xFF0).dataAddr (0xF#4).toNat ≤ 0xFFF ∧
    ∃ t, exec (.storeRegs 0xF#4) (withI 0xFF0) = .next t ∧ t.I = (withI 0xFF0).I := ⟨by decide, _, rfl, rfl⟩
theorem witness_NextFetchSeesStore : 1 ≤ (0x1#4).toNat ∧ (withI 0x202).dataAddr (0x1#4).toNat ≤ 0xFFF ∧
    ((withI 0x202).pc + 2).toNat = (withI 0x202).dataAddr 0 := by decide

theorem witness_SkipsOnKey : (0x3#4).toNat = ((withRegs [(2, 0x13)]).reg 0x2#4).toNat % 16 := by decide
theorem witness_SoundTimerSetNeverRead : ∃ t, exec (.ldSTVx 0x1#4) State.reset = .next t := ⟨_, rfl⟩
/-- The highest key alone, and no key. -/
theorem witness_KeyWaitTakesLeastKey : ({ State.reset with K := keysDown [15] } : State).keyDown 0xF#4 = true ∧
    (∀ j : Nibble, j.toNat < (0xF#4).toNat → ({ State.reset with K := keysDown [15] } : State).keyDown j = false) ∧
    ∀ k : Nibble, State.reset.keyDown k = false := by decide

/-! Endless runs: ticks and engine steps in turn, over a word that leaves pc where it is. -/

/-- A tick, an engine step, a tick, ... -/
def tickThenEngine (n : Nat) : Turn := if n % 2 = 0 then .tick else .engine
/-- The states of that run: DT is 1 before the first tick and 0 after it. -/
def countedDown (w : Nat) (n : Nat) : State := { atWord w with DT := if n = 0 then 1 else 0 }

theorem tickThenEngine_fair : FairTicks tickThenEngine := fun n => ⟨2 * n, by omega, by simp [tickThenEngine]⟩
/-- Where the engine's step leaves the state as it is, that is a run. -/
theorem run_countedDown {w : Nat} (h0 : (countedDown w 0).agenda = [])
    (ht0 : step ((countedDown w 0).offer .tick) = .next (countedDown w 1))
    (ht1 : step ((countedDown w 1).offer .tick) = .next (countedDown w 1))
    (he : step ((countedDown w 1).offer .engine) = .next (countedDown w 1)) : Run tickThenEngine (countedDown w) := by
  refine ⟨h0, fun n => ?_⟩
  rcases n with _ | n
  · exact ht0
  · rw [show countedDown w (n + 1) = countedDown w 1 from rfl, show countedDown w (n + 1 + 1) = countedDown w 1 from rfl]
    unfold tickThenEngine
    split
    · exact ht1
    · exact he
theorem witness_RunFollowsAgenda : Run tickThenEngine (countedDown 0x1200) :=
  run_countedDown (by decide) rfl rfl rfl
theorem witness_FairTicksBringDelayTimerToZero : Run tickThenEngine (countedDown 0x1200) ∧ FairTicks tickThenEngine ∧
    (∀ m w x, 0 ≤ m → tickThenEngine m = .engine → (countedDown 0x1200 m).fetch = some w → decode w ≠ .ok (.ldDTVx x)) ∧
    ∀ j, 1 ≤ j → j < 2 → tickThenEngine j ≠ .tick := by
  refine ⟨witness_RunFollowsAgenda, tickThenEngine_fair, fun m w x _ _ hf => ?_, fun j h1 h2 => ?_⟩
  · have e : (countedDown 0x1200 m).fetch = some 0x1200#16 := by
      show (atWord 0x1200).fetch = _; decide
    rw [e] at hf; cases hf
    have : decode 0x1200#16 = .ok (.jp 0x200#12) := by decide
    rw [this]; intro hx; cases hx
  · rw [show j = 1 by omega]; decide
/-- A key wait with every key up, no key ever pressed, and the self-jump. -/
theorem witness_WaitsRunForever : Run tickThenEngine (countedDown 0xF00A) ∧ (countedDown 0xF00A 0).F = none ∧
    (countedDown 0xF00A 0).fetch = some 0xF00A#16 ∧ decode 0xF00A#16 = .ok (.ldVxK 0x0#4) ∧
    (∀ k : Nibble, (countedDown 0xF00A 0).keyDown k = false) ∧ (∀ j keys, tickThenEngine j ≠ .keypad keys) ∧
    Run tickThenEngine (countedDown 0x1200) ∧ (countedDown 0x1200 0).AtEnd 0x200#12 :=
  ⟨run_countedDown (by decide) rfl rfl rfl, by decide, by decide, by decide, by decide,
   fun j keys => by unfold tickThenEngine; split <;> simp, witness_RunFollowsAgenda, by decide, by decide, by decide⟩
theorem witness_HostReadsNumberedFault : (halted []).F = some ⟨.stackUnderflow, 0x200, some 0x00EE, none⟩ ∧ State.reset.F = none :=
  ⟨rfl, rfl⟩
/-- R170's table: an empty-stack RET is code 3, with its word. -/
theorem test_faultOutput : (match step (atWord 0x00EE) with | .next t => t.faultOutput | _ => none) =
    some ⟨3, 0x200, some 0x00EE, none⟩ := by decide

end Sys2Proof.Tests
end

section
/-! The instruction fetch and 1-byte stores (20_memory.md R53). -/

namespace Sys2Proof.Machine

/-! ### The two halves of the word at an address -/

section
variable (m : Memory)

@[simp] theorem Memory.hiByte_wordAt (a : Nat) : (m.wordAt a).hiByte = m.read a := Word.hiByte_ofBytes _ _

@[simp] theorem Memory.loByte_wordAt (a : Nat) : (m.wordAt a).loByte = m.read (a + 1) := Word.loByte_ofBytes _ _

/-- Bits [15:8] take the value of a 1-byte write exactly when it is at the word's own address. -/
theorem Memory.hiByte_wordAt_write (a b : Nat) (v : Byte) :
    ((m.write a v).wordAt b).hiByte = if a = b then v else (m.wordAt b).hiByte := by
  simp only [hiByte_wordAt, read_write, eq_comm (a := a)]

/-- Bits [7:0] take the value of a 1-byte write exactly when it is at the address after the word's own. -/
theorem Memory.loByte_wordAt_write (a b : Nat) (v : Byte) :
    ((m.write a v).wordAt b).loByte = if a = b + 1 then v else (m.wordAt b).loByte := by
  simp only [loByte_wordAt, read_write, eq_comm (a := a)]

end

/-- Settles O7: the fetched word is `wordAt pc` before the write and after it (a write leaves pc alone), and each half of
`wordAt` reads one byte of memory. -/
theorem fetchIsBigEndian : Obligations.FetchIsBigEndian := by
  unfold Obligations.FetchIsBigEndian
  intro s hpc
  have hfetch : s.fetch = some (s.M.wordAt s.pc.toNat) := State.fetch_in hpc
  refine ⟨⟨_, hfetch, s.M.hiByte_wordAt _, s.M.loByte_wordAt _⟩, fun a v => ?_⟩
  have hstored : { s with M := s.M.write a v }.fetch = some ((s.M.write a v).wordAt s.pc.toNat) := State.fetch_in hpc
  exact ⟨_, _, hfetch, hstored, s.M.hiByte_wordAt_write a _ v, s.M.loByte_wordAt_write a _ v⟩

end Sys2Proof.Machine
end

section
/-! Clearing the screen (40_display.md R100). -/

namespace Sys2Proof.Machine

/-- Under the full mask a row's only word is its pattern. -/
theorem rowDecodes_fullMask {p : Word} {i : Instr} (h : decode p = .ok i) : RowDecodes p 0xFFFF#16 (fun _ => i) := by
  intro w hw
  have hwp : w = p := BitVec.and_allOnes.symm.trans hw
  rw [hwp, h]

/-- Replacing the grid on the way to the next instruction writes nothing but the grid (and pc). -/
theorem onlyWrites_grid (s : State) (g : Grid) : OnlyWrites s { s.advance with P := g } [.grid] where
  regs := fun r _ => s.reg_advance r
  index := fun _ => s.advance_I
  stack := fun _ => s.advance_S
  delay := fun _ => s.advance_DT
  sound := fun _ => s.advance_ST
  grid := fun h => absurd (List.mem_singleton_self _) h
  bytes := fun b _ => congrArg (Memory.read · b) s.advance_M
  fault := fun _ => s.advance_F
  keys := s.advance_K
  config := s.advance_cfg

/-- CLS as a state equation: on any state it completes, with a blank grid and pc at the next instruction. -/
theorem exec_cls (s : State) : exec .cls s = .next { s.advance with P := Grid.clear } := rfl

/-- Settles O26: the row has one word, and the state CLS reaches has the blank grid, whose pixels are all 0, as its only
difference from the state before, pc apart. -/
theorem clsClearsGrid : Obligations.ClsClearsGrid := by
  unfold Obligations.ClsClearsGrid
  have hword : decode 0x00E0#16 = .ok .cls := by decide
  exact ⟨rowDecodes_fullMask hword, fun s =>
    ⟨_, exec_cls s, fun r c _ _ => Grid.pixel_clear r c, s.advance_pc, onlyWrites_grid s Grid.clear⟩⟩

end Sys2Proof.Machine
end

section
/-! Dispatch by a row of the opcode map (30_encoding.md R74). -/

namespace Sys2Proof

/-- Two rows whose patterns differ on a bit both masks test select no word in common. -/
theorem Row.not_selects_of_clash {a r : Row} {w : Word} (hw : w &&& r.mask = r.pattern)
    (hclash : a.pattern &&& r.mask ≠ r.pattern &&& a.mask) : a.selects w = false := by
  refine beq_eq_false_iff_ne.mpr fun ha => hclash ?_
  rw [← ha, ← hw, BitVec.and_assoc, BitVec.and_assoc, BitVec.and_comm a.mask]

end Sys2Proof

namespace Sys2Proof.Machine

/-- A row of the table (`k` counted from 0) that clashes with every earlier row decodes all its words. -/
theorem rowDecodes_of_clash {k : Nat} {r : Row} (hrow : opcodeTable[k]? = some r)
    (hclash : ∀ a ∈ opcodeTable.take k, a.pattern &&& r.mask ≠ r.pattern &&& a.mask) :
    RowDecodes r.pattern r.mask r.instr := by
  intro w hw
  obtain ⟨hk, hget⟩ := List.getElem?_eq_some_iff.mp hrow
  have hfind : opcodeTable.find? (·.selects w) = some r := by
    refine List.find?_eq_some_iff_getElem.mpr ⟨beq_iff_eq.mpr hw, k, hk, hget, fun j hj => ?_⟩
    have hmem : opcodeTable[j] ∈ opcodeTable.take k := List.mem_take_iff_getElem.mpr ⟨j, by omega, rfl⟩
    rw [Row.not_selects_of_clash hw (hclash _ hmem), Bool.not_false]
  rw [decode, hfind]

end Sys2Proof.Machine
end

section
/-! Skips (41_control_flow.md R119) and SE, SNE on an immediate byte (R114, R115). -/

namespace Sys2Proof.Machine

section
variable (s : State) {taken : Bool} {c : Prop} [Decidable c]

/-- A skip taken exactly when `c` holds goes to `ia + 4` on `c`. -/
theorem State.skipIf_pc_of_iff (h : taken = true ↔ c) : (s.skipIf taken).pc = if c then s.pc + 4 else s.pc + 2 := by
  rw [State.skipIf_pc, BitVec.add_assoc]
  exact if_congr h rfl rfl

/-- A skip taken exactly when `c` fails goes to `ia + 2` on `c`. -/
theorem State.skipIf_pc_of_iff_not (h : taken = true ↔ ¬ c) :
    (s.skipIf taken).pc = if c then s.pc + 2 else s.pc + 4 := by
  rw [s.skipIf_pc_of_iff h, ite_not]

end

/-- A skip, taken or not, writes pc alone. -/
theorem onlyWrites_skipIf (s : State) (taken : Bool) : OnlyWrites s (s.skipIf taken) [] where
  regs := fun r _ => s.reg_skipIf taken r
  index := fun _ => s.skipIf_I taken
  stack := fun _ => s.skipIf_S taken
  delay := fun _ => s.skipIf_DT taken
  sound := fun _ => s.skipIf_ST taken
  grid := fun _ r c => congrArg (Grid.pixel · r c) (s.skipIf_P taken)
  bytes := fun b _ => congrArg (Memory.read · b) (s.skipIf_M taken)
  fault := fun _ => s.skipIf_F taken
  keys := s.skipIf_K taken
  config := s.skipIf_cfg taken

theorem exec_seImm (s : State) (x : Nibble) (nn : Byte) :
    exec (.seImm x nn) s = .next (s.skipIf (s.reg x == nn)) := rfl

theorem exec_sneImm (s : State) (x : Nibble) (nn : Byte) :
    exec (.sneImm x nn) s = .next (s.skipIf (s.reg x != nn)) := rfl

/-- Settles O35: rows 6 and 7 of R74 share no word with an earlier row, and the two instructions are the skip taken on
equality and the skip taken on inequality, for any state and register. -/
theorem skipsOnImmediate : Obligations.SkipsOnImmediate := by
  unfold Obligations.SkipsOnImmediate
  have hse := rowDecodes_of_clash (k := 5) rfl (by decide)
  have hsne := rowDecodes_of_clash (k := 6) rfl (by decide)
  refine ⟨hse, hsne, fun s x nn => ⟨?_, ?_⟩⟩
  · exact ⟨_, exec_seImm s x nn, s.skipIf_pc_of_iff beq_iff_eq, onlyWrites_skipIf s _⟩
  · exact ⟨_, exec_sneImm s x nn, s.skipIf_pc_of_iff_not bne_iff_ne, onlyWrites_skipIf s _⟩

end Sys2Proof.Machine
end

section
/-! The byte of the ALU's sum (42_alu.md R131, R136). -/

namespace Sys2Proof.Machine

/-- Nine bits hold the sum of two bytes without loss. -/
theorem sum9_toNat (a b : Byte) : (sum9 a b).toNat = a.toNat + b.toNat := by
  unfold sum9
  bv_omega

/-- The low byte of the 9-bit sum is the sum modulo 256. -/
theorem addResult_toNat (a b : Byte) : (addResult a b).toNat = (a.toNat + b.toNat) % 256 := by
  rw [addResult, BitVec.extractLsb'_toNat, sum9_toNat, Nat.shiftRight_zero]

end Sys2Proof.Machine
end

section
/-! Writing one register and moving on, and the three instructions that do nothing else: LD Vx, nn; ADD Vx, nn; LD Vx, Vy
(42_alu.md R130 to R132). -/

namespace Sys2Proof.Machine

/-- Writing register `x` on the way to the next instruction writes nothing but `x` (and pc). -/
theorem onlyWrites_setReg (s : State) (x : Nibble) (v : Byte) : OnlyWrites s (s.advance.setReg x v) [.reg x] where
  regs := fun _ hr => s.advance.reg_setReg_ne v fun h => hr (h ▸ List.mem_singleton_self _)
  index := fun _ => s.advance.setReg_I x v
  stack := fun _ => s.advance.setReg_S x v
  delay := fun _ => s.advance.setReg_DT x v
  sound := fun _ => s.advance.setReg_ST x v
  grid := fun _ r c => congrArg (Grid.pixel · r c) (s.advance.setReg_P x v)
  bytes := fun b _ => congrArg (Memory.read · b) (s.advance.setReg_M x v)
  fault := fun _ => s.advance.setReg_F x v
  keys := s.advance.setReg_K x v
  config := s.advance.setReg_cfg x v

theorem exec_ldImm (s : State) (x : Nibble) (nn : Byte) : exec (.ldImm x nn) s = .next (s.advance.setReg x nn) := rfl

theorem exec_addImm (s : State) (x : Nibble) (nn : Byte) :
    exec (.addImm x nn) s = .next (s.advance.setReg x (addResult (s.reg x) nn)) := rfl

theorem exec_ldReg (s : State) (x y : Nibble) : exec (.ldReg x y) s = .next (s.advance.setReg x (s.reg y)) := rfl

/-- Settles O38: rows 9, 10 and 11 of R74 share no word with an earlier row, and each of the three instructions is one
write of V[x], for any state and register, VF like any other. -/
theorem loadsAndPlainAdd : Obligations.LoadsAndPlainAdd := by
  unfold Obligations.LoadsAndPlainAdd
  have hldImm := rowDecodes_of_clash (k := 8) rfl (by decide)
  have haddImm := rowDecodes_of_clash (k := 9) rfl (by decide)
  have hldReg := rowDecodes_of_clash (k := 10) rfl (by decide)
  refine ⟨hldImm, haddImm, hldReg, fun s x y nn => ?_⟩
  have hread (v : Byte) : (s.advance.setReg x v).reg x = v := s.advance.reg_setReg_same x v
  have hpc (v : Byte) : (s.advance.setReg x v).pc = s.pc + 2 := s.advance.setReg_pc x v
  refine ⟨?_, ?_, ?_⟩
  · exact ⟨_, exec_ldImm s x nn, hread _, hpc _, onlyWrites_setReg s x _⟩
  · have hsum := (congrArg BitVec.toNat (hread (addResult (s.reg x) nn))).trans (addResult_toNat _ _)
    exact ⟨_, exec_addImm s x nn, hsum, hpc _, onlyWrites_setReg s x _⟩
  · exact ⟨_, exec_ldReg s x y, hread _, hpc _, onlyWrites_setReg s x _⟩

end Sys2Proof.Machine
end

section
/-! Loading the index register (43_index_memory.md R150). -/

namespace Sys2Proof.Machine

/-- Replacing the index register on the way to the next instruction writes nothing but the index register (and pc). -/
theorem onlyWrites_index (s : State) (a : Addr) : OnlyWrites s { s.advance with I := a } [.index] where
  regs := fun r _ => s.reg_advance r
  index := fun h => absurd (List.mem_singleton_self _) h
  stack := fun _ => s.advance_S
  delay := fun _ => s.advance_DT
  sound := fun _ => s.advance_ST
  grid := fun _ r c => congrArg (Grid.pixel · r c) s.advance_P
  bytes := fun b _ => congrArg (Memory.read · b) s.advance_M
  fault := fun _ => s.advance_F
  keys := s.advance_K
  config := s.advance_cfg

/-- LD I, nnn as a state equation: on any state and for any nnn it completes, with I replaced and pc at the next
instruction. -/
theorem exec_ldI (s : State) (nnn : Addr) : exec (.ldI nnn) s = .next { s.advance with I := nnn } := rfl

/-- Settles O44: row 21 of R74 shares no word with an earlier row, and the state LD I, nnn reaches has I = nnn as its only
difference from the state before, pc apart. -/
theorem ldISetsIndex : Obligations.LdISetsIndex := by
  unfold Obligations.LdISetsIndex
  have hrow := rowDecodes_of_clash (k := 20) rfl (by decide)
  exact ⟨hrow, fun s nnn => ⟨_, exec_ldI s nnn, rfl, s.advance_pc, onlyWrites_index s nnn⟩⟩

end Sys2Proof.Machine
end

section
/-! The two timer registers (44_timers_keys.md R163, R165): reading DT into a register and writing DT. -/

namespace Sys2Proof.Machine

/-- Moving on with new timer values writes at most the timers: each timer that is not among the parts keeps its value. -/
theorem onlyWrites_timers (s : State) {dt st : Byte} {parts : List Part} (hdt : .delay ∉ parts → dt = s.DT)
    (hst : .sound ∉ parts → st = s.ST) : OnlyWrites s { s.advance with DT := dt, ST := st } parts where
  regs := fun r _ => s.reg_advance r
  index := fun _ => s.advance_I
  stack := fun _ => s.advance_S
  delay := hdt
  sound := hst
  grid := fun _ r c => congrArg (Grid.pixel · r c) s.advance_P
  bytes := fun b _ => congrArg (Memory.read · b) s.advance_M
  fault := fun _ => s.advance_F
  keys := s.advance_K
  config := s.advance_cfg

theorem exec_ldVxDT (s : State) (x : Nibble) : exec (.ldVxDT x) s = .next (s.advance.setReg x s.DT) := rfl

theorem exec_ldDTVx (s : State) (x : Nibble) : exec (.ldDTVx x) s = .next { s.advance with DT := s.reg x } := rfl

/-- Settles O53: rows 27 and 29 of R74 share no word with an earlier row; the first instruction is one write of V[x], and the
second leaves a state that differs in DT alone, pc apart, for any state and register. -/
theorem delayTimerReadAndSet : Obligations.DelayTimerReadAndSet := by
  unfold Obligations.DelayTimerReadAndSet
  have hread := rowDecodes_of_clash (k := 26) rfl (by decide)
  have hset := rowDecodes_of_clash (k := 28) rfl (by decide)
  refine ⟨hread, hset, fun s x => ⟨?_, ?_⟩⟩
  · exact ⟨_, exec_ldVxDT s x, s.advance.reg_setReg_same x _, s.advance.setReg_pc x _, onlyWrites_setReg s x _⟩
  · have hframe : OnlyWrites s { s.advance with DT := s.reg x } [.delay] :=
      onlyWrites_timers s (fun h => absurd (List.mem_singleton_self _) h) (fun _ => s.advance_ST)
    exact ⟨_, exec_ldDTVx s x, rfl, s.advance_pc, hframe⟩

end Sys2Proof.Machine
end

section
/-! The keypad skips (44_timers_keys.md R160 to R162). -/

namespace Sys2Proof.Machine

/-- The key a register value selects is the value modulo 16 (R160). -/
theorem keyNumber_toNat (b : Byte) : (keyNumber b).toNat = b.toNat % 16 := by
  rw [keyNumber, BitVec.extractLsb'_toNat, Nat.shiftRight_zero]

theorem exec_skp (s : State) (x : Nibble) :
    exec (.skp x) s = .next (s.skipIf (s.keyDown (keyNumber (s.reg x)))) := rfl

theorem exec_sknp (s : State) (x : Nibble) :
    exec (.sknp x) s = .next (s.skipIf (!s.keyDown (keyNumber (s.reg x)))) := rfl

/-- Settles O52: rows 25 and 26 of R74 share no word with an earlier row; the key number of V[x] is the `k` of the statement,
and the two instructions are the skip taken when that key is down and the skip taken when it is not. -/
theorem skipsOnKey : Obligations.SkipsOnKey := by
  unfold Obligations.SkipsOnKey
  have hskp := rowDecodes_of_clash (k := 24) rfl (by decide)
  have hsknp := rowDecodes_of_clash (k := 25) rfl (by decide)
  refine ⟨hskp, hsknp, fun s x k hk => ?_⟩
  obtain rfl : k = keyNumber (s.reg x) := BitVec.eq_of_toNat_eq (hk.trans (keyNumber_toNat _).symm)
  refine ⟨?_, ?_⟩
  · exact ⟨_, exec_skp s x, s.skipIf_pc_of_iff Iff.rfl, onlyWrites_skipIf s _⟩
  · exact ⟨_, exec_sknp s x, s.skipIf_pc_of_iff_not Bool.not_iff_not, onlyWrites_skipIf s _⟩

end Sys2Proof.Machine
end

section
/-! The sound timer (44_timers_keys.md R166): LD ST, Vx writes it, and no instruction's outcome depends on it. -/

namespace Sys2Proof.Machine

/-- An outcome with the sound timer of its next state replaced. -/
def replaceSound (b : Byte) : Host.Outcome State Fault Refusal → Host.Outcome State Fault Refusal
  | .next t => .next { t with ST := b }
  | .fault r => .fault r
  | .refused r => .refused r

section
variable (s : State) (b : Byte)

/-- Whether a skip is taken or not, it carries the sound timer along. -/
theorem skipIf_withSound (taken : Bool) :
    { s with ST := b }.skipIf taken = { s.skipIf taken with ST := b } := by cases taken <;> rfl

/-- A branch on something else than the sound timer carries it along when both of its sides do. -/
theorem ite_replaceSound {c : Prop} [Decidable c] {o o' p p' : Host.Outcome State Fault Refusal}
    (ho : o' = replaceSound b o) (hp : p' = replaceSound b p) :
    (if c then o' else p') = replaceSound b (if c then o else p) :=
  (if_congr Iff.rfl ho hp).trans (apply_ite (replaceSound b) c o p).symm

/-- The range check of a data access does not read the sound timer, nor does the fault it raises. -/
theorem checked_withSound {i : Instr} {hi : Nat} {done done' : State} (hdone : done' = { done with ST := b }) :
    checked { s with ST := b } i hi done' = replaceSound b (checked s i hi done) :=
  ite_replaceSound b rfl (congrArg Host.Outcome.next hdone)

/-- Apart from LD ST, Vx an instruction neither reads nor writes the sound timer: it has no branch, or it branches on
another part of the state and takes the same branch on both sides. -/
theorem exec_withSound {i : Instr} (hi : ∀ x, i ≠ .ldSTVx x) :
    exec i { s with ST := b } = replaceSound b (exec i s) := by
  cases i
  case ldSTVx x => exact absurd rfl (hi x)
  case seImm | sneImm | seReg | sneReg | skp | sknp => exact congrArg Host.Outcome.next (skipIf_withSound s b _)
  case ldB | storeRegs | loadRegs => exact checked_withSound s b rfl
  case call | addI => exact ite_replaceSound b rfl rfl
  case drw => exact ite_replaceSound b rfl (checked_withSound s b rfl)
  case ret =>
    show execRet _ = replaceSound b (execRet s)
    unfold execRet
    dsimp only
    split <;> rfl
  case ldVxK x =>
    have hkey : { s with ST := b }.firstKeyDown = s.firstKeyDown := rfl
    show execLdVxK x _ = replaceSound b (execLdVxK x s)
    unfold execLdVxK
    rw [hkey]
    split <;> rfl
  all_goals rfl

theorem exec_ldSTVx (x : Nibble) : exec (.ldSTVx x) s = .next { s.advance with ST := s.reg x } := rfl

/-- LD ST, Vx replaces the sound timer whatever it was. -/
theorem exec_ldSTVx_withSound (x : Nibble) : exec (.ldSTVx x) { s with ST := b } = exec (.ldSTVx x) s := rfl

end

/-- Settles O54: row 30 of R74 shares no word with an earlier row; LD ST, Vx leaves a state that differs in ST alone, pc apart,
and forgets the ST before it; every other instruction carries ST along unread. -/
theorem soundTimerSetNeverRead : Obligations.SoundTimerSetNeverRead := by
  unfold Obligations.SoundTimerSetNeverRead
  have hrow := rowDecodes_of_clash (k := 29) rfl (by decide)
  refine ⟨hrow, fun s x => ?_, fun i s t b h => ?_⟩
  · have hframe : OnlyWrites s { s.advance with ST := s.reg x } [.sound] :=
      onlyWrites_timers s (fun _ => s.advance_DT) (fun h => absurd (List.mem_singleton_self _) h)
    exact ⟨_, exec_ldSTVx s x, rfl, s.advance_pc, hframe⟩
  · by_cases hi : ∃ x, i = .ldSTVx x
    · rw [if_pos hi]
      obtain ⟨x, rfl⟩ := hi
      exact (exec_ldSTVx_withSound s b x).trans h
    · rw [if_neg hi]
      calc exec i { s with ST := b } = replaceSound b (exec i s) := exec_withSound s b (not_exists.mp hi)
        _ = .next { t with ST := b } := congrArg (replaceSound b) h

end Sys2Proof.Machine
end

section
/-! Decode and encode (30_encoding.md R70 to R76). The rows of the opcode map clash pairwise but for CLS and RET under SYS, so
the row an instruction's own word selects is the first such row; read the other way, a row's instruction encodes back to
any word that selects the row. -/

namespace Sys2Proof

open Laws.EncodeSelectsRow (Statement rowOf)
open Machine (illegalWord)

/-! ### Which rows share a word -/

/-- Any two rows clash on a bit both masks test, but rows 1 and 2 (CLS, RET) with row 3 (SYS). -/
theorem opcodeTable_clash : ∀ j k : Fin opcodeTable.length, j < k → ¬ (j.val ≤ 1 ∧ k.val = 2) →
    opcodeTable[j].pattern &&& opcodeTable[k].mask ≠ opcodeTable[k].pattern &&& opcodeTable[j].mask := by
  decide

/-- Settles O4: two different rows that select one word cannot clash. -/
theorem rowsOverlapOnlyOnSys : Obligations.RowsOverlapOnlyOnSys := by
  unfold Obligations.RowsOverlapOnlyOnSys
  intro w j k a b hjk ha hb haw hbw
  obtain ⟨hj, rfl⟩ := List.getElem?_eq_some_iff.mp ha
  obtain ⟨hk, rfl⟩ := List.getElem?_eq_some_iff.mp hb
  by_contra hover
  have hclash := opcodeTable_clash ⟨j, hj⟩ ⟨k, hk⟩ hjk hover
  exact absurd haw (Bool.eq_false_iff.mp (Row.not_selects_of_clash (beq_iff_eq.mp hbw) hclash))

/-! ### The decoder as the first selecting row -/

/-- A word decodes to `i` exactly when some row selects it, no earlier row does, and the row reads `i` from it. -/
theorem decode_eq_ok_iff {w : Word} {i : Instr} :
    decode w = .ok i ↔ ∃ (k : Nat) (r : Row), opcodeTable[k]? = some r ∧ r.selects w = true ∧ r.instr w = i ∧
      ∀ (j : Nat) (a : Row), j < k → opcodeTable[j]? = some a → a.selects w = false := by
  unfold decode
  constructor
  · intro h
    split at h
    case h_2 => cases h
    case h_1 r hfind =>
      obtain ⟨hr, k, hk, hget, hfirst⟩ := List.find?_eq_some_iff_getElem.mp hfind
      refine ⟨k, r, List.getElem?_eq_some_iff.mpr ⟨hk, hget⟩, hr, by simpa using h, fun j a hj ha => ?_⟩
      obtain ⟨_, rfl⟩ := List.getElem?_eq_some_iff.mp ha
      simpa using hfirst j hj
  · rintro ⟨k, r, hget, hr, rfl, hfirst⟩
    obtain ⟨hk, hget⟩ := List.getElem?_eq_some_iff.mp hget
    have hfind : opcodeTable.find? (·.selects w) = some r := by
      refine List.find?_eq_some_iff_getElem.mpr ⟨hr, k, hk, hget, fun j hj => ?_⟩
      rw [hfirst j _ hj (List.getElem?_eq_getElem _), Bool.not_false]
    rw [hfind]

/-- The decoder's one reason to reject a word. -/
theorem decode_error {w : Word} {e : DecodeError} (h : decode w = .error e) : e = .unknownInstruction w := by
  unfold decode at h
  split at h
  · cases h
  · cases h; rfl

/-! ### Decode after encode -/

open Laws.EncodeSelectsRow in
/-- Every instruction's word selects the instruction's own row, which reads the instruction back. -/
theorem encode_selects_row (i : Instr) : Statement i :=
  match i with
  | .cls => cls
  | .ret => ret
  | .sys nnn => sys nnn
  | .jp nnn => jp nnn
  | .call nnn => call nnn
  | .seImm x nn => seImm x nn
  | .sneImm x nn => sneImm x nn
  | .seReg x y => seReg x y
  | .ldImm x nn => ldImm x nn
  | .addImm x nn => addImm x nn
  | .ldReg x y => ldReg x y
  | .orReg x y => orReg x y
  | .andReg x y => andReg x y
  | .xorReg x y => xorReg x y
  | .addReg x y => addReg x y
  | .subReg x y => subReg x y
  | .shrReg x y => shrReg x y
  | .subnReg x y => subnReg x y
  | .shlReg x y => shlReg x y
  | .sneReg x y => sneReg x y
  | .ldI nnn => ldI nnn
  | .jpV0 nnn => jpV0 nnn
  | .rnd x nn => rnd x nn
  | .drw x y n => drw x y n
  | .skp x => skp x
  | .sknp x => sknp x
  | .ldVxDT x => ldVxDT x
  | .ldVxK x => ldVxK x
  | .ldDTVx x => ldDTVx x
  | .ldSTVx x => ldSTVx x
  | .addI x => addI x
  | .ldF x => ldF x
  | .ldB x => ldB x
  | .storeRegs x => storeRegs x
  | .loadRegs x => loadRegs x

/-- A word of class 0 is the SYS word of one address only. -/
theorem encode_sys_eq_iff {nnn v : Addr} : encode (.sys nnn) = encA 0x0#4 v ↔ nnn = v :=
  ⟨fun h => by rw [← encA_nnn 0x0#4 nnn, ← encA_nnn 0x0#4 v]; exact congrArg Word.nnn h, fun h => h ▸ rfl⟩

/-- SYS is well-formed exactly when its word is not that of CLS or RET (R75). -/
theorem wellFormed_sys_iff {nnn : Addr} :
    (Instr.sys nnn).wellFormed = true ↔ encode (.sys nnn) ≠ 0x00E0#16 ∧ encode (.sys nnn) ≠ 0x00EE#16 := by
  have hcls : encode (.sys nnn) = 0x00E0#16 ↔ nnn = 0x0E0#12 := encode_sys_eq_iff (v := 0x0E0#12)
  have hret : encode (.sys nnn) = 0x00EE#16 ↔ nnn = 0x0EE#12 := encode_sys_eq_iff (v := 0x0EE#12)
  rw [Ne, Ne, hcls, hret]
  simp [Instr.wellFormed]

/-- Under the full mask a row selects its pattern alone. -/
theorem eq_of_masked_full {w p : Word} (h : (w &&& 0xFFFF#16 == p) = true) : w = p :=
  BitVec.and_allOnes.symm.trans (beq_iff_eq.mp h)

/-- Rows 1 and 2 select one word each. -/
theorem row_selects_of_le_one {j : Nat} {a : Row} {w : Word} (hj : j ≤ 1) (ha : opcodeTable[j]? = some a)
    (haw : a.selects w = true) : w = 0x00E0#16 ∨ w = 0x00EE#16 := by
  interval_cases j
  · cases ha; exact .inl (eq_of_masked_full haw)
  · cases ha; exact .inr (eq_of_masked_full haw)

/-- Only SYS has row 3. -/
theorem eq_sys_of_rowOf {i : Instr} (h : rowOf i = 2) : ∃ nnn, i = .sys nnn := by
  cases i
  case sys nnn => exact ⟨nnn, rfl⟩
  all_goals exact absurd h (Nat.ne_of_beq_eq_false rfl)

theorem decode_encode {i : Instr} (hwf : i.wellFormed = true) : decode (encode i) = .ok i := by
  obtain ⟨r, hget, hsel, hinstr⟩ := encode_selects_row i
  refine decode_eq_ok_iff.mpr ⟨_, r, hget, hsel, hinstr, fun j a hj ha => Bool.eq_false_iff.mpr fun haw => ?_⟩
  obtain ⟨hj1, hi2⟩ := rowsOverlapOnlyOnSys _ j _ a r hj ha hget haw hsel
  obtain ⟨nnn, rfl⟩ := eq_sys_of_rowOf hi2
  obtain ⟨hcls, hret⟩ := wellFormed_sys_iff.mp hwf
  exact (row_selects_of_le_one hj1 ha haw).elim hcls hret

/-- Settles O2: an instruction's word selects its own row and, the instruction being well-formed, no row before it; the two
bytes of the word give the word back. -/
theorem decodeOfEncode : Obligations.DecodeOfEncode := by
  unfold Obligations.DecodeOfEncode
  intro i rest hwf
  refine ⟨decode_encode hwf, ?_⟩
  show decodeBytes ((encode i).hiByte :: (encode i).loByte :: rest) = _
  rw [decodeBytes, Word.ofBytes_bytes, decode_encode hwf]

/-! ### Encode after decode -/

section
variable {w p : Word} {op : Nibble}

/-- The class of a word under the masks that test it, and the low nibble or byte where they test that. -/
theorem op_eq_of_masked (h : (w &&& 0xF000#16 == p) = true) (hp : p.toNat = op.toNat * 4096) : w.op = op :=
  BitVec.eq_of_toNat_eq (by have := and_F000_toNat w; rw [beq_iff_eq.mp h] at this; omega)

theorem op_n_eq_of_masked {n : Nibble} (h : (w &&& 0xF00F#16 == p) = true)
    (hp : p.toNat = op.toNat * 4096 + n.toNat) : w.op = op ∧ w.n = n := by
  have hfields := and_F00F_toNat w
  rw [beq_iff_eq.mp h] at hfields
  have := n.isLt
  have := w.n.isLt
  exact ⟨BitVec.eq_of_toNat_eq (by omega), BitVec.eq_of_toNat_eq (by omega)⟩

theorem op_nn_eq_of_masked {nn : Byte} (h : (w &&& 0xF0FF#16 == p) = true)
    (hp : p.toNat = op.toNat * 4096 + nn.toNat) : w.op = op ∧ w.nn = nn := by
  have hfields := and_F0FF_toNat w
  rw [beq_iff_eq.mp h] at hfields
  have := nn.isLt
  have := w.nn.isLt
  exact ⟨BitVec.eq_of_toNat_eq (by omega), BitVec.eq_of_toNat_eq (by omega)⟩

/-- Under the masks that test the class nibble alone, a selected word is the one its class and its fields make. -/
theorem encA_of_selects (h : (w &&& 0xF000#16 == p) = true) (hp : p.toNat = op.toNat * 4096) :
    encA op w.nnn = w := by
  rw [← op_eq_of_masked h hp, encA_fields]

theorem encXNN_of_selects (h : (w &&& 0xF000#16 == p) = true) (hp : p.toNat = op.toNat * 4096) :
    encXNN op w.x w.nn = w := by
  rw [← op_eq_of_masked h hp, encXNN_fields]

theorem encXYN_of_selects (h : (w &&& 0xF000#16 == p) = true) (hp : p.toNat = op.toNat * 4096) :
    encXYN op w.x w.y w.n = w := by
  rw [← op_eq_of_masked h hp, encXYN_fields]

/-- Under the mask that tests the low nibble too. -/
theorem encXY_of_selects {n : Nibble} (h : (w &&& 0xF00F#16 == p) = true) (hp : p.toNat = op.toNat * 4096 + n.toNat) :
    encXYN op w.x w.y n = w := by
  obtain ⟨hop, hn⟩ := op_n_eq_of_masked h hp
  rw [← hop, ← hn, encXYN_fields]

/-- Under the mask that tests the low byte too. -/
theorem encX_of_selects {nn : Byte} (h : (w &&& 0xF0FF#16 == p) = true) (hp : p.toNat = op.toNat * 4096 + nn.toNat) :
    encXNN op w.x nn = w := by
  obtain ⟨hop, hnn⟩ := op_nn_eq_of_masked h hp
  rw [← hop, ← hnn, encXNN_fields]

end

/-- What each row reads from a word it selects encodes back to the word; by the row's format (R73). -/
theorem encode_instr_rows1 : ∀ r ∈ opcodeRows1, ∀ w, r.selects w = true → encode (r.instr w) = w := by
  simp only [opcodeRows1, List.forall_mem_cons]
  exact ⟨fun _ h => (eq_of_masked_full h).symm, fun _ h => (eq_of_masked_full h).symm,
    fun _ h => encA_of_selects h rfl, fun _ h => encA_of_selects h rfl, fun _ h => encA_of_selects h rfl,
    fun _ h => encXNN_of_selects h rfl, fun _ h => encXNN_of_selects h rfl, fun _ h => encXY_of_selects h rfl,
    fun _ h => encXNN_of_selects h rfl, fun _ h => encXNN_of_selects h rfl, nofun⟩

theorem encode_instr_rows2 : ∀ r ∈ opcodeRows2, ∀ w, r.selects w = true → encode (r.instr w) = w := by
  simp only [opcodeRows2, List.forall_mem_cons]
  exact ⟨fun _ h => encXY_of_selects h rfl, fun _ h => encXY_of_selects h rfl, fun _ h => encXY_of_selects h rfl,
    fun _ h => encXY_of_selects h rfl, fun _ h => encXY_of_selects h rfl, fun _ h => encXY_of_selects h rfl,
    fun _ h => encXY_of_selects h rfl, fun _ h => encXY_of_selects h rfl, fun _ h => encXY_of_selects h rfl,
    fun _ h => encXY_of_selects h rfl, nofun⟩

theorem encode_instr_rows3 : ∀ r ∈ opcodeRows3, ∀ w, r.selects w = true → encode (r.instr w) = w := by
  simp only [opcodeRows3, List.forall_mem_cons]
  exact ⟨fun _ h => encA_of_selects h rfl, fun _ h => encA_of_selects h rfl, fun _ h => encXNN_of_selects h rfl,
    fun _ h => encXYN_of_selects h rfl, fun _ h => encX_of_selects h rfl, fun _ h => encX_of_selects h rfl,
    fun _ h => encX_of_selects h rfl, fun _ h => encX_of_selects h rfl, fun _ h => encX_of_selects h rfl,
    fun _ h => encX_of_selects h rfl, fun _ h => encX_of_selects h rfl, fun _ h => encX_of_selects h rfl,
    fun _ h => encX_of_selects h rfl, fun _ h => encX_of_selects h rfl, fun _ h => encX_of_selects h rfl, nofun⟩

theorem encode_of_decode {w : Word} {i : Instr} (h : decode w = .ok i) : encode i = w := by
  obtain ⟨k, r, hget, hsel, rfl, -⟩ := decode_eq_ok_iff.mp h
  have hmem : r ∈ opcodeRows1 ++ opcodeRows2 ++ opcodeRows3 := List.mem_of_getElem? hget
  rw [List.mem_append, List.mem_append] at hmem
  obtain (h1 | h2) | h3 := hmem
  · exact encode_instr_rows1 r h1 w hsel
  · exact encode_instr_rows2 r h2 w hsel
  · exact encode_instr_rows3 r h3 w hsel

/-- Settles O3: the row that reads the instruction encodes back to the word; were the instruction a SYS with the word of CLS
or RET, the decoder would have stopped at row 1 or 2. -/
theorem encodeOfDecode : Obligations.EncodeOfDecode := by
  unfold Obligations.EncodeOfDecode
  intro w i h
  have hw := encode_of_decode h
  refine ⟨?_, hw⟩
  cases i
  case sys nnn =>
    have hcls : decode 0x00E0#16 = .ok .cls := by decide
    have hret : decode 0x00EE#16 = .ok .ret := by decide
    rw [wellFormed_sys_iff, hw]
    refine ⟨?_, ?_⟩
    · rintro rfl; exact nomatch h.symm.trans hcls
    · rintro rfl; exact nomatch h.symm.trans hret
  all_goals rfl

/-! ### The illegal words (R76) -/

/-- No instruction's word is in one of the five classes: its class nibble is of none, or its fixed low part is allowed. -/
theorem illegalWord_encode (i : Instr) : illegalWord (encode i) = false := by
  cases i
  case cls => rfl
  case ret => rfl
  all_goals simp [illegalWord, encode]

/-- A word of class 8 is legal for nine low nibbles, one instruction each. -/
theorem exists_encode_class8 (x y : Nibble) {n : Nibble}
    (h : [0x8, 0x9, 0xA, 0xB, 0xC, 0xD, 0xF].contains n = false) : ∃ i, encode i = encXYN 0x8#4 x y n := by
  have hn : n ∈ [0x0#4, 0x1#4, 0x2#4, 0x3#4, 0x4#4, 0x5#4, 0x6#4, 0x7#4, 0xE#4] := by revert n; decide
  simp only [List.mem_cons, List.not_mem_nil, or_false] at hn
  rcases hn with rfl | rfl | rfl | rfl | rfl | rfl | rfl | rfl | rfl
  exacts [⟨.ldReg x y, rfl⟩, ⟨.orReg x y, rfl⟩, ⟨.andReg x y, rfl⟩, ⟨.xorReg x y, rfl⟩, ⟨.addReg x y, rfl⟩,
    ⟨.subReg x y, rfl⟩, ⟨.shrReg x y, rfl⟩, ⟨.subnReg x y, rfl⟩, ⟨.shlReg x y, rfl⟩]

/-- A word of class E is legal for two low bytes. -/
theorem exists_encode_classE (x : Nibble) {nn : Byte} (h : [0x9E, 0xA1].contains nn = true) :
    ∃ i, encode i = encXNN 0xE#4 x nn := by
  simp only [List.contains_iff_mem, List.mem_cons, List.not_mem_nil, or_false] at h
  rcases h with rfl | rfl
  exacts [⟨.skp x, rfl⟩, ⟨.sknp x, rfl⟩]

/-- A word of class F is legal for nine low bytes. -/
theorem exists_encode_classF (x : Nibble) {nn : Byte}
    (h : [0x07, 0x0A, 0x15, 0x18, 0x1E, 0x29, 0x33, 0x55, 0x65].contains nn = true) :
    ∃ i, encode i = encXNN 0xF#4 x nn := by
  simp only [List.contains_iff_mem, List.mem_cons, List.not_mem_nil, or_false] at h
  rcases h with rfl | rfl | rfl | rfl | rfl | rfl | rfl | rfl | rfl
  exacts [⟨.ldVxDT x, rfl⟩, ⟨.ldVxK x, rfl⟩, ⟨.ldDTVx x, rfl⟩, ⟨.ldSTVx x, rfl⟩, ⟨.addI x, rfl⟩, ⟨.ldF x, rfl⟩,
    ⟨.ldB x, rfl⟩, ⟨.storeRegs x, rfl⟩, ⟨.loadRegs x, rfl⟩]

/-- Every other word is some instruction's, found by its class nibble. -/
theorem exists_encode_of_legal {w : Word} (h : illegalWord w = false) : ∃ i, encode i = w := by
  have hA := encA_fields w
  have hXNN := encXNN_fields w
  have hXYN := encXYN_fields w
  have hop (op : Nibble) : op ∈ [0x0#4, 0x1#4, 0x2#4, 0x3#4, 0x4#4, 0x5#4, 0x6#4, 0x7#4, 0x8#4, 0x9#4, 0xA#4, 0xB#4,
    0xC#4, 0xD#4, 0xE#4, 0xF#4] := by revert op; decide
  have hop := hop w.op
  simp only [illegalWord, Bool.or_eq_false_iff, Bool.and_eq_false_imp, beq_iff_eq, bne_eq_false_iff_eq,
    Bool.not_eq_false'] at h
  obtain ⟨⟨⟨⟨h5, h9⟩, h8⟩, hE⟩, hF⟩ := h
  simp only [List.mem_cons, List.not_mem_nil, or_false] at hop
  rcases hop with e | e | e | e | e | e | e | e | e | e | e | e | e | e | e | e <;> rw [e] at hA hXNN hXYN
  · exact ⟨.sys w.nnn, hA⟩
  · exact ⟨.jp w.nnn, hA⟩
  · exact ⟨.call w.nnn, hA⟩
  · exact ⟨.seImm w.x w.nn, hXNN⟩
  · exact ⟨.sneImm w.x w.nn, hXNN⟩
  · exact ⟨.seReg w.x w.y, by rwa [h5 e] at hXYN⟩
  · exact ⟨.ldImm w.x w.nn, hXNN⟩
  · exact ⟨.addImm w.x w.nn, hXNN⟩
  · exact hXYN ▸ exists_encode_class8 w.x w.y (h8 e)
  · exact ⟨.sneReg w.x w.y, by rwa [h9 e] at hXYN⟩
  · exact ⟨.ldI w.nnn, hA⟩
  · exact ⟨.jpV0 w.nnn, hA⟩
  · exact ⟨.rnd w.x w.nn, hXNN⟩
  · exact ⟨.drw w.x w.y w.n, hXYN⟩
  · exact hXNN ▸ exists_encode_classE w.x (hE e)
  · exact hXNN ▸ exists_encode_classF w.x (hF e)

/-- Every instruction's word is accepted, those of SYS 0x0E0 and 0x0EE as CLS and RET. -/
theorem exists_decode_encode (i : Instr) : ∃ j, decode (encode i) = .ok j := by
  by_cases hwf : i.wellFormed = true
  · exact ⟨i, decode_encode hwf⟩
  · cases i
    case sys nnn =>
      rw [wellFormed_sys_iff, not_and_or, not_not, not_not] at hwf
      rcases hwf with h | h <;> rw [h]
      · exact ⟨.cls, by decide⟩
      · exact ⟨.ret, by decide⟩
    all_goals exact absurd rfl hwf

/-- Settles O5: an illegal word is no instruction's, so it cannot have been decoded; a legal one is some instruction's. -/
theorem illegalWordsExactly : Obligations.IllegalWordsExactly := by
  unfold Obligations.IllegalWordsExactly
  refine fun w => ⟨fun hill => ?_, fun hleg => ?_⟩
  · cases hdec : decode w with
    | error e => rw [decode_error hdec]
    | ok i => exact absurd hill (Bool.eq_false_iff.mp (encode_of_decode hdec ▸ illegalWord_encode i))
  · obtain ⟨i, rfl⟩ := exists_encode_of_legal hleg
    exact exists_decode_encode i

/-- A word of class 0 other than those of CLS and RET decodes to SYS. -/
theorem decode_sys {w : Word} (h0 : w &&& 0xF000#16 = 0x0000#16) (hcls : w ≠ 0x00E0#16) (hret : w ≠ 0x00EE#16) :
    decode w = .ok (.sys w.nnn) := by
  have hw : encode (.sys w.nnn) = w := encA_of_selects (p := 0x0000#16) (beq_iff_eq.mpr h0) rfl
  have hdec := decode_encode (i := .sys w.nnn) (wellFormed_sys_iff.mpr (by rw [hw]; exact ⟨hcls, hret⟩))
  rwa [hw] at hdec

/-- Settles O34: such a word decodes to the SYS it encodes, so the word in the record is the word itself. -/
theorem sysRaisesLegacyFault : Obligations.SysRaisesLegacyFault := by
  unfold Obligations.SysRaisesLegacyFault
  intro w h0 hcls hret
  have hdec := decode_sys h0 hcls hret
  refine ⟨w.nnn, hdec, fun s => ?_⟩
  rw [← congrArg some (encode_of_decode hdec)]
  rfl

/-- Settles O1: each word is decoded by running down the opcode map. -/
theorem specWordsDecode : Obligations.SpecWordsDecode := by
  unfold Obligations.SpecWordsDecode
  decide

end Sys2Proof
end

section
/-! Frames (OnlyWrites): they weaken to more parts and compose, and each single update of the state has one. -/

namespace Sys2Proof.Machine

variable {s t u : State} {ps qs : List Part}

theorem OnlyWrites.mono (h : OnlyWrites s t ps) (hsub : ps ⊆ qs) : OnlyWrites s t qs where
  regs := fun r hr => h.regs r fun hm => hr (hsub hm)
  index := fun hq => h.index fun hm => hq (hsub hm)
  stack := fun hq => h.stack fun hm => hq (hsub hm)
  delay := fun hq => h.delay fun hm => hq (hsub hm)
  sound := fun hq => h.sound fun hm => hq (hsub hm)
  grid := fun hq => h.grid fun hm => hq (hsub hm)
  bytes := fun b hb => h.bytes b fun a n hm => hb a n (hsub hm)
  fault := fun hq => h.fault fun hm => hq (hsub hm)
  keys := h.keys
  config := h.config

theorem OnlyWrites.trans (h : OnlyWrites s t ps) (h' : OnlyWrites t u qs) : OnlyWrites s u (ps ++ qs) := by
  have hp := h.mono (List.subset_append_left ps qs)
  have hq := h'.mono (List.subset_append_right ps qs)
  exact {
    regs := fun r hr => (hq.regs r hr).trans (hp.regs r hr)
    index := fun hn => (hq.index hn).trans (hp.index hn)
    stack := fun hn => (hq.stack hn).trans (hp.stack hn)
    delay := fun hn => (hq.delay hn).trans (hp.delay hn)
    sound := fun hn => (hq.sound hn).trans (hp.sound hn)
    grid := fun hn r c => (hq.grid hn r c).trans (hp.grid hn r c)
    bytes := fun b hb => (hq.bytes b hb).trans (hp.bytes b hb)
    fault := fun hn => (hq.fault hn).trans (hp.fault hn)
    keys := hq.keys.trans hp.keys
    config := hq.config.trans hp.config }

/-! ### One update each; pc, the draw counter and the agenda are no parts -/

theorem onlyWrites_refl (s : State) (ps : List Part) : OnlyWrites s s ps :=
  ⟨fun _ _ => rfl, fun _ => rfl, fun _ => rfl, fun _ => rfl, fun _ => rfl, fun _ _ _ => rfl, fun _ _ => rfl, fun _ => rfl,
    rfl, rfl⟩

theorem onlyWrites_advance (s : State) : OnlyWrites s s.advance [] := onlyWrites_skipIf s false

theorem onlyWrites_jumpTo (s : State) (a : Word) : OnlyWrites s (s.jumpTo a) [] where
  __ := onlyWrites_refl s []

theorem onlyWrites_withDraws (s : State) (n : Nat) : OnlyWrites s { s with draws := n } [] where
  __ := onlyWrites_refl s []

theorem onlyWrites_withS (s : State) (st : List Word) : OnlyWrites s { s with S := st } [.stack] where
  __ := onlyWrites_refl s [.stack]
  stack := fun h => absurd (List.mem_singleton_self _) h

theorem onlyWrites_withF (s : State) (f : Option FaultRecord) : OnlyWrites s { s with F := f } [.fault] where
  __ := onlyWrites_refl s [.fault]
  fault := fun h => absurd (List.mem_singleton_self _) h

theorem onlyWrites_writeReg (s : State) (x : Nibble) (v : Byte) : OnlyWrites s (s.setReg x v) [.reg x] where
  __ := onlyWrites_refl s [.reg x]
  regs := fun _ hr => s.reg_setReg_ne v fun h => hr (h ▸ List.mem_singleton_self _)

/-- A bulk load writes one register for each byte. -/
theorem onlyWrites_loadRegs (s : State) {bs : List Byte} (hlen : bs.length ≤ 16) :
    OnlyWrites s (s.loadRegs bs) ((List.range bs.length).map fun k => .reg (BitVec.ofNat 4 k)) where
  __ := onlyWrites_refl s _
  regs := fun r hr => by
    rw [s.reg_loadRegs bs r hlen, if_neg]
    exact fun hlt => hr (List.mem_map.mpr ⟨r.toNat, List.mem_range.mpr hlt, by rw [BitVec.ofNat_toNat, BitVec.setWidth_eq]⟩)

/-- A bulk store writes its own bytes. -/
theorem onlyWrites_writeBytes (s : State) (a : Nat) (bs : List Byte) :
    OnlyWrites s { s with M := s.M.writeBytes a bs } [.bytes a bs.length] where
  __ := onlyWrites_refl s _
  bytes := fun b hb => by
    have hout := hb a bs.length (List.mem_singleton_self _)
    exact (s.M.read_writeBytes a b bs).trans (if_neg hout)

theorem onlyWrites_setRegFlag (s : State) (x : Nibble) (v f : Byte) :
    OnlyWrites s (s.advance.setRegFlag x v f) [.reg x, .reg 0xF#4] :=
  (onlyWrites_setReg s x v).trans (onlyWrites_writeReg _ flagReg f)

/-! ### The updates of the other instructions -/

theorem onlyWrites_ret (s : State) (a : Word) (rest : List Word) :
    OnlyWrites s ({ s with S := rest }.jumpTo a) [.stack] :=
  (onlyWrites_withS s rest).trans (onlyWrites_jumpTo _ a)

theorem onlyWrites_call (s : State) (a : Word) : OnlyWrites s ((s.advance.push s.advance.pc).jumpTo a) [.stack] :=
  (onlyWrites_advance s).trans ((onlyWrites_withS s.advance _).trans (onlyWrites_jumpTo _ a))

theorem onlyWrites_rnd (s : State) (x : Nibble) (v : Byte) (n : Nat) :
    OnlyWrites s { s.advance.setReg x v with draws := n } [.reg x] :=
  (onlyWrites_setReg s x v).trans (onlyWrites_withDraws _ n)

theorem onlyWrites_drawn (s : State) (g : Grid) (v : Byte) :
    OnlyWrites s ({ s.advance with P := g }.setReg flagReg v) [.grid, .reg 0xF#4] :=
  (onlyWrites_grid s g).trans (onlyWrites_writeReg _ flagReg v)

theorem onlyWrites_indexFlag (s : State) (a : Addr) (v : Byte) :
    OnlyWrites s ({ s.advance with I := a }.setReg flagReg v) [.index, .reg 0xF#4] :=
  (onlyWrites_index s a).trans (onlyWrites_writeReg _ flagReg v)

theorem onlyWrites_indexNoFlag (s : State) (a : Addr) :
    OnlyWrites s { s.advance with I := a } [.index, .reg 0xF#4] :=
  (onlyWrites_index s a).mono (List.subset_append_left [Part.index] [Part.reg 0xF#4])

theorem onlyWrites_bcd (s : State) (b : Byte) :
    OnlyWrites s { s.advance with M := s.M.writeBytes (s.dataAddr 0) (bcdDigits b) } [.bytes (s.dataAddr 0) 3] :=
  (onlyWrites_advance s).trans (onlyWrites_writeBytes s.advance (s.dataAddr 0) (bcdDigits b))

end Sys2Proof.Machine
end

section
/-! What `exec` answers, said once for each instruction: the fault it raises and when, the parts of the state it writes when it
raises none, and where pc goes. -/

namespace Sys2Proof.Machine

/-! ### The instructions without a branch, as state equations -/

section
variable (s : State)

theorem exec_sys (nnn : Addr) : exec (.sys nnn) s = .next (s.raiseAt .legacyMachineCode (.sys nnn)) := rfl

theorem exec_jp (nnn : Addr) : exec (.jp nnn) s = .next (s.jumpTo (zextAddr nnn)) := rfl

theorem exec_jpV0 (nnn : Addr) :
    exec (.jpV0 nnn) s = .next (s.jumpTo (zextAddr nnn + zextByte (s.reg (s.jumpReg nnn)))) := rfl

theorem exec_seReg (x y : Nibble) : exec (.seReg x y) s = .next (s.skipIf (s.reg x == s.reg y)) := rfl

theorem exec_sneReg (x y : Nibble) : exec (.sneReg x y) s = .next (s.skipIf (s.reg x != s.reg y)) := rfl

theorem exec_orReg (x y : Nibble) :
    exec (.orReg x y) s = .next (s.advance.setRegFlag x (s.reg x ||| s.reg y) 0x00#8) := rfl

theorem exec_andReg (x y : Nibble) :
    exec (.andReg x y) s = .next (s.advance.setRegFlag x (s.reg x &&& s.reg y) 0x00#8) := rfl

theorem exec_xorReg (x y : Nibble) :
    exec (.xorReg x y) s = .next (s.advance.setRegFlag x (s.reg x ^^^ s.reg y) 0x00#8) := rfl

theorem exec_addReg (x y : Nibble) : exec (.addReg x y) s =
    .next (s.advance.setRegFlag x (addResult (s.reg x) (s.reg y)) (flagByte (carryOut (s.reg x) (s.reg y)))) := rfl

theorem exec_subReg (x y : Nibble) : exec (.subReg x y) s =
    .next (s.advance.setRegFlag x (subResult (s.reg x) (s.reg y)) (flagByte (notBorrow (s.reg x) (s.reg y)))) := rfl

theorem exec_subnReg (x y : Nibble) : exec (.subnReg x y) s =
    .next (s.advance.setRegFlag x (subResult (s.reg y) (s.reg x)) (flagByte (notBorrow (s.reg y) (s.reg x)))) := rfl

theorem exec_shrReg (x y : Nibble) : exec (.shrReg x y) s =
    .next (s.advance.setRegFlag x (shrResult (s.shiftSource x y)) (flagByte (shrOut (s.shiftSource x y)))) := rfl

theorem exec_shlReg (x y : Nibble) : exec (.shlReg x y) s =
    .next (s.advance.setRegFlag x (shlResult (s.shiftSource x y)) (flagByte (shlOut (s.shiftSource x y)))) := rfl

theorem exec_rnd (x : Nibble) (nn : Byte) : exec (.rnd x nn) s =
    .next { s.advance.setReg x (Config.randomByte s.draws &&& nn) with draws := s.draws + 1 } := rfl

theorem exec_ldF (x : Nibble) : exec (.ldF x) s = .next { s.advance with I := glyphAddr (s.reg x) } := rfl

end

/-! ### The instructions with a branch, one equation a case -/

section
variable {s : State} {x y n : Nibble} {nnn : Addr}

theorem exec_ret_nil (h : s.S = []) : exec .ret s = .next (s.raiseAt .stackUnderflow .ret) := by
  show execRet s = _
  rw [execRet, h]

theorem exec_ret_cons {a : Word} {rest : List Word} (h : s.S = a :: rest) :
    exec .ret s = .next ({ s with S := rest }.jumpTo a) := by
  show execRet s = _
  rw [execRet, h]

theorem stackFull_iff : s.stackFull = true ↔ s.cfg.stackLimit = some s.S.length := by
  unfold State.stackFull
  split
  next h => simp [h]
  next k h => rw [h, beq_iff_eq, Option.some_inj, eq_comm]

theorem exec_call_full (h : s.cfg.stackLimit = some s.S.length) :
    exec (.call nnn) s = .next (s.raiseAt .stackOverflow (.call nnn)) :=
  if_pos (stackFull_iff.mpr h)

theorem exec_call_room (h : s.cfg.stackLimit ≠ some s.S.length) :
    exec (.call nnn) s = .next ((s.advance.push s.advance.pc).jumpTo (zextAddr nnn)) :=
  if_neg fun hfull => h (stackFull_iff.mp hfull)

theorem exec_drw_inRange (h : SpriteInRange s n) : exec (.drw x y n) s =
    .next ({ s.advance with P := (s.drawn x y n).1 }.setReg flagReg (flagByte (s.drawn x y n).2)) := by
  by_cases h0 : n.toNat = 0
  · exact if_pos h0
  · exact (if_neg h0).trans (checked_in (h.resolve_left h0))

theorem exec_drw_outOfRange (h0 : n.toNat ≠ 0) (h : topAddr < s.dataAddr (n.toNat - 1)) : exec (.drw x y n) s =
    .next (s.raise .addressOutOfRangeData (some (encode (.drw x y n))) (some (s.dataAddr (n.toNat - 1)))) :=
  (if_neg h0).trans (checked_out h)

theorem exec_addI_wraps (h : 4096 ≤ indexSum s.I (s.reg x)) : exec (.addI x) s =
    .next ({ s.advance with I := BitVec.ofNat 12 (indexSum s.I (s.reg x) - 4096) }.setReg flagReg 0x01#8) :=
  if_pos (decide_eq_true h)

theorem exec_addI_below (h : ¬ 4096 ≤ indexSum s.I (s.reg x)) : exec (.addI x) s =
    .next { s.advance with I := BitVec.ofNat 12 (indexSum s.I (s.reg x)) } :=
  if_neg fun hw => h (of_decide_eq_true hw)

theorem exec_ldVxK_some {k : Nibble} (h : s.firstKeyDown = some k) :
    exec (.ldVxK x) s = .next (s.advance.setReg x (k.setWidth 8)) := by
  show execLdVxK x s = _
  rw [execLdVxK, h]

/-- With no key down pc goes back to `ia`, which leaves the state as it was. -/
theorem exec_ldVxK_none (h : s.firstKeyDown = none) : exec (.ldVxK x) s = .next s := by
  have hpc : s.pc + 2 - 2 = s.pc := BitVec.add_sub_cancel _ _
  show execLdVxK x s = _
  rw [execLdVxK, h]
  show Host.Outcome.next { s with pc := s.pc + 2 - 2 } = _
  rw [hpc]

theorem exec_ldB_in (h : s.dataAddr 2 ≤ topAddr) : exec (.ldB x) s =
    .next { s.advance with M := s.M.writeBytes (s.dataAddr 0) (bcdDigits (s.reg x)) } := checked_in h

theorem exec_ldB_out (h : topAddr < s.dataAddr 2) : exec (.ldB x) s =
    .next (s.raise .addressOutOfRangeData (some (encode (.ldB x))) (some (s.dataAddr 2))) := checked_out h

theorem exec_storeRegs_in (h : s.dataAddr x.toNat ≤ topAddr) : exec (.storeRegs x) s =
    .next { s.advance with M := s.M.writeBytes (s.dataAddr 0) (s.regsUpTo x), I := s.indexAfterBulk x } := checked_in h

theorem exec_storeRegs_out (h : topAddr < s.dataAddr x.toNat) : exec (.storeRegs x) s =
    .next (s.raise .addressOutOfRangeData (some (encode (.storeRegs x))) (some (s.dataAddr x.toNat))) := checked_out h

theorem exec_loadRegs_in (h : s.dataAddr x.toNat ≤ topAddr) : exec (.loadRegs x) s =
    .next { s.advance.loadRegs (s.M.readBytes (s.dataAddr 0) (x.toNat + 1)) with I := s.indexAfterBulk x } := checked_in h

theorem exec_loadRegs_out (h : topAddr < s.dataAddr x.toNat) : exec (.loadRegs x) s =
    .next (s.raise .addressOutOfRangeData (some (encode (.loadRegs x))) (some (s.dataAddr x.toNat))) := checked_out h

end

/-! ### The fault an instruction raises (60_exceptions.md R170 to R174) -/

/-- The record of a data access whose highest address is `hi`, where that is above 0xFFF. -/
def dataFault (s : State) (i : Instr) (hi : Nat) : Option FaultRecord :=
  if topAddr < hi then some ⟨.addressOutOfRangeData, s.pc, some (encode i), some hi⟩ else none

/-- The record an instruction's own conditions call for. -/
def instrFault (i : Instr) (s : State) : Option FaultRecord :=
  match i with
  | .ret => if s.S = [] then some ⟨.stackUnderflow, s.pc, some (encode .ret), none⟩ else none
  | .sys nnn => some ⟨.legacyMachineCode, s.pc, some (encode (.sys nnn)), none⟩
  | .call nnn =>
    if s.cfg.stackLimit = some s.S.length then some ⟨.stackOverflow, s.pc, some (encode (.call nnn)), none⟩ else none
  | .drw x y n => if n.toNat = 0 then none else dataFault s (.drw x y n) (s.dataAddr (n.toNat - 1))
  | .ldB x => dataFault s (.ldB x) (s.dataAddr 2)
  | .storeRegs x => dataFault s (.storeRegs x) (s.dataAddr x.toNat)
  | .loadRegs x => dataFault s (.loadRegs x) (s.dataAddr x.toNat)
  | _ => none

section
variable {s t : State} {i : Instr} {f : FaultRecord} {hi : Nat}

theorem dataFault_eq_none_iff : dataFault s i hi = none ↔ hi ≤ topAddr := by
  simp [dataFault]

theorem dataFault_eq_some_iff :
    dataFault s i hi = some f ↔ topAddr < hi ∧ f = ⟨.addressOutOfRangeData, s.pc, some (encode i), some hi⟩ := by
  rw [dataFault, Option.ite_none_right_eq_some, Option.some_inj, eq_comm (b := f)]

theorem instrFault_ret_eq_none_iff : instrFault .ret s = none ↔ s.S ≠ [] := by
  simp [instrFault]

theorem instrFault_call_eq_none_iff {nnn : Addr} :
    instrFault (.call nnn) s = none ↔ s.cfg.stackLimit ≠ some s.S.length := by
  simp [instrFault]

theorem instrFault_drw_eq_none_iff {x y n : Nibble} : instrFault (.drw x y n) s = none ↔ SpriteInRange s n := by
  by_cases h0 : n.toNat = 0
  · exact iff_of_true (if_pos h0) (.inl h0)
  · rw [instrFault, if_neg h0, dataFault_eq_none_iff, SpriteInRange, or_iff_right h0]
    rfl

/-- An instruction whose conditions call for a fault changes nothing but F (R175). -/
theorem exec_of_instrFault (h : instrFault i s = some f) : exec i s = .next { s with F := some f } := by
  cases i
  case ret =>
    obtain ⟨hS, hf⟩ := Option.ite_none_right_eq_some.mp h
    exact hf ▸ exec_ret_nil hS
  case sys nnn => cases h; exact exec_sys s nnn
  case call nnn =>
    obtain ⟨hfull, hf⟩ := Option.ite_none_right_eq_some.mp h
    exact hf ▸ exec_call_full hfull
  case drw x y n =>
    obtain ⟨h0, h⟩ := Option.ite_none_left_eq_some.mp h
    obtain ⟨hhi, rfl⟩ := dataFault_eq_some_iff.mp h
    exact exec_drw_outOfRange h0 hhi
  case ldB x =>
    obtain ⟨hhi, rfl⟩ := dataFault_eq_some_iff.mp h
    exact exec_ldB_out hhi
  case storeRegs x =>
    obtain ⟨hhi, rfl⟩ := dataFault_eq_some_iff.mp h
    exact exec_storeRegs_out hhi
  case loadRegs x =>
    obtain ⟨hhi, rfl⟩ := dataFault_eq_some_iff.mp h
    exact exec_loadRegs_out hhi
  all_goals cases h

/-- The record has the shape of its code (R170). -/
theorem instrFault_shaped (h : instrFault i s = some f) : f.Shaped := by
  have hdata {j : Instr} {hi : Nat} (h : dataFault s j hi = some f) : f.Shaped := by
    obtain ⟨hhi, rfl⟩ := dataFault_eq_some_iff.mp h
    exact ⟨rfl, hi, rfl, hhi⟩
  cases i
  case ret => cases (Option.ite_none_right_eq_some.mp h).2; exact ⟨rfl, rfl⟩
  case sys => cases h; exact ⟨rfl, rfl⟩
  case call => cases (Option.ite_none_right_eq_some.mp h).2; exact ⟨rfl, rfl⟩
  case drw => exact hdata (Option.ite_none_left_eq_some.mp h).2
  case ldB | storeRegs | loadRegs => exact hdata h
  all_goals cases h

end

/-! ### The state an instruction leaves -/

/-- The state `exec` answers; it always answers one. -/
def after (i : Instr) (s : State) : State :=
  match exec i s with
  | .next t => t
  | .fault _ | .refused _ => s

section
variable {s t : State} {i : Instr} {f : FaultRecord}

theorem after_of_exec (h : exec i s = .next t) : after i s = t := by rw [after, h]

theorem exec_eq_after (i : Instr) (s : State) : exec i s = .next (after i s) := by
  obtain ⟨t, h⟩ := exec_next i s
  rw [after_of_exec h, h]

theorem after_of_instrFault (h : instrFault i s = some f) : after i s = { s with F := some f } :=
  after_of_exec (exec_of_instrFault h)

section
variable {x y n : Nibble} {nnn : Addr}

theorem after_ret (hf : instrFault .ret s = none) :
    ∃ a rest, s.S = a :: rest ∧ after .ret s = { s with S := rest }.jumpTo a := by
  obtain ⟨a, rest, hS⟩ := List.exists_cons_of_ne_nil (instrFault_ret_eq_none_iff.mp hf)
  exact ⟨a, rest, hS, after_of_exec (exec_ret_cons hS)⟩

theorem after_call (hf : instrFault (.call nnn) s = none) :
    after (.call nnn) s = (s.advance.push s.advance.pc).jumpTo (zextAddr nnn) :=
  after_of_exec (exec_call_room (instrFault_call_eq_none_iff.mp hf))

theorem after_drw (hf : instrFault (.drw x y n) s = none) : after (.drw x y n) s =
    { s.advance with P := (s.drawn x y n).1 }.setReg flagReg (flagByte (s.drawn x y n).2) :=
  after_of_exec (exec_drw_inRange (instrFault_drw_eq_none_iff.mp hf))

theorem after_ldB (hf : instrFault (.ldB x) s = none) : after (.ldB x) s =
    { s.advance with M := s.M.writeBytes (s.dataAddr 0) (bcdDigits (s.reg x)) } :=
  after_of_exec (exec_ldB_in (dataFault_eq_none_iff.mp hf))

theorem after_storeRegs (hf : instrFault (.storeRegs x) s = none) : after (.storeRegs x) s =
    { s.advance with M := s.M.writeBytes (s.dataAddr 0) (s.regsUpTo x), I := s.indexAfterBulk x } :=
  after_of_exec (exec_storeRegs_in (dataFault_eq_none_iff.mp hf))

theorem after_loadRegs (hf : instrFault (.loadRegs x) s = none) : after (.loadRegs x) s =
    { s.advance.loadRegs (s.M.readBytes (s.dataAddr 0) (x.toNat + 1)) with I := s.indexAfterBulk x } :=
  after_of_exec (exec_loadRegs_in (dataFault_eq_none_iff.mp hf))

theorem after_addI (x : Nibble) (s : State) : ∃ a, after (.addI x) s = { s.advance with I := a } ∨
    after (.addI x) s = { s.advance with I := a }.setReg flagReg 0x01#8 := by
  by_cases hsum : 4096 ≤ indexSum s.I (s.reg x)
  · exact ⟨_, .inr (after_of_exec (exec_addI_wraps hsum))⟩
  · exact ⟨_, .inl (after_of_exec (exec_addI_below hsum))⟩

theorem after_ldVxK (x : Nibble) (s : State) :
    (∃ v, after (.ldVxK x) s = s.advance.setReg x v) ∨ after (.ldVxK x) s = s := by
  cases hkey : s.firstKeyDown with
  | some k => exact .inl ⟨_, after_of_exec (exec_ldVxK_some hkey)⟩
  | none => exact .inr (after_of_exec (exec_ldVxK_none hkey))

end

/-! ### What an instruction that raises no fault writes -/

/-- The index register, where the bulk transfers advance it (43_index_memory.md R157). -/
def bulkIndexParts (s : State) : List Part := if s.cfg.qIndexInc then [.index] else []

/-- The parts an instruction writes when it raises no fault, pc apart. -/
def writes (i : Instr) (s : State) : List Part :=
  match i with
  | .cls => [.grid]
  | .ret | .call _ => [.stack]
  | .ldImm x _ | .addImm x _ | .ldReg x _ | .rnd x _ | .ldVxDT x | .ldVxK x => [.reg x]
  | .orReg x _ | .andReg x _ | .xorReg x _ | .addReg x _ | .subReg x _ | .shrReg x _ | .subnReg x _ | .shlReg x _ =>
    [.reg x, .reg 0xF#4]
  | .ldI _ | .ldF _ => [.index]
  | .addI _ => [.index, .reg 0xF#4]
  | .drw _ _ _ => [.grid, .reg 0xF#4]
  | .ldDTVx _ => [.delay]
  | .ldSTVx _ => [.sound]
  | .ldB _ => [.bytes (s.dataAddr 0) 3]
  | .storeRegs x => bulkIndexParts s ++ [.bytes (s.dataAddr 0) (x.toNat + 1)]
  | .loadRegs x => bulkIndexParts s ++ (List.range (x.toNat + 1)).map fun k => .reg (BitVec.ofNat 4 k)
  | .sys _ | .jp _ | .jpV0 _ | .seImm _ _ | .sneImm _ _ | .seReg _ _ | .sneReg _ _ | .skp _ | .sknp _ => []

theorem onlyWrites_indexAfterBulk (s : State) (x : Nibble) :
    OnlyWrites s { s.advance with I := s.indexAfterBulk x } (bulkIndexParts s) := by
  unfold bulkIndexParts State.indexAfterBulk
  split
  · exact onlyWrites_index s _
  · exact onlyWrites_advance s

theorem onlyWrites_bulkStore (s : State) (x : Nibble) :
    OnlyWrites s { s.advance with M := s.M.writeBytes (s.dataAddr 0) (s.regsUpTo x), I := s.indexAfterBulk x }
      (writes (.storeRegs x) s) := by
  have hstore := onlyWrites_writeBytes { s.advance with I := s.indexAfterBulk x } (s.dataAddr 0) (s.regsUpTo x)
  rw [s.regsUpTo_length] at hstore
  exact (onlyWrites_indexAfterBulk s x).trans hstore

theorem onlyWrites_bulkLoad (s : State) (x : Nibble) :
    OnlyWrites s { s.advance.loadRegs (s.M.readBytes (s.dataAddr 0) (x.toNat + 1)) with I := s.indexAfterBulk x }
      (writes (.loadRegs x) s) := by
  have hlen := s.M.readBytes_length (s.dataAddr 0) (x.toNat + 1)
  have hload := onlyWrites_loadRegs { s.advance with I := s.indexAfterBulk x } (hlen.trans_le x.isLt)
  rw [hlen] at hload
  exact (onlyWrites_indexAfterBulk s x).trans hload

/-- An instruction that raises no fault changes nothing but the parts it writes. -/
theorem onlyWrites_after (h : instrFault i s = none) : OnlyWrites s (after i s) (writes i s) := by
  cases i
  case cls => exact onlyWrites_grid s _
  case ret =>
    obtain ⟨a, rest, -, ht⟩ := after_ret h
    exact ht ▸ onlyWrites_ret s a rest
  case sys => cases h
  case jp | jpV0 => exact onlyWrites_jumpTo s _
  case call => exact after_call h ▸ onlyWrites_call s _
  case seImm | sneImm | seReg | sneReg | skp | sknp => exact onlyWrites_skipIf s _
  case ldImm | addImm | ldReg | ldVxDT => exact onlyWrites_setReg s _ _
  case orReg | andReg | xorReg | addReg | subReg | shrReg | subnReg | shlReg => exact onlyWrites_setRegFlag s _ _ _
  case ldI | ldF => exact onlyWrites_index s _
  case rnd => exact onlyWrites_rnd s _ _ _
  case drw => exact after_drw h ▸ onlyWrites_drawn s _ _
  case ldVxK x =>
    obtain ⟨v, ht⟩ | ht := after_ldVxK x s
    · exact ht ▸ onlyWrites_setReg s x v
    · rw [ht]; exact onlyWrites_refl s _
  case ldDTVx => exact onlyWrites_timers s (fun h => absurd (List.mem_singleton_self _) h) fun _ => rfl
  case ldSTVx => exact onlyWrites_timers s (fun _ => rfl) fun h => absurd (List.mem_singleton_self _) h
  case addI x =>
    obtain ⟨a, ht | ht⟩ := after_addI x s
    · exact ht ▸ onlyWrites_indexNoFlag s a
    · exact ht ▸ onlyWrites_indexFlag s a _
  case ldB => exact after_ldB h ▸ onlyWrites_bcd s _
  case storeRegs x => exact after_storeRegs h ▸ onlyWrites_bulkStore s x
  case loadRegs x => exact after_loadRegs h ▸ onlyWrites_bulkLoad s x

end

end Sys2Proof.Machine
end

section
/-! Which instruction writes which part of the state (10_state.md R21 to R31; 20_memory.md R51), read off the frame of `exec`. -/

namespace Sys2Proof.Machine

section
variable {s t : State} {i : Instr}

/-- An instruction changes nothing but the parts it writes and, when it raises a fault, F. -/
theorem onlyWrites_exec (h : exec i s = .next t) : OnlyWrites s t (.fault :: writes i s) := by
  obtain rfl := after_of_exec h
  cases hf : instrFault i s with
  | none => exact (onlyWrites_after hf).mono (List.subset_cons_self _ _)
  | some f =>
    rw [after_of_instrFault hf]
    exact (onlyWrites_withF s (some f)).mono (List.subset_append_left [Part.fault] (writes i s))

/-! ### Which instruction lists a part -/

theorem fault_notMem_writes : Part.fault ∉ writes i s := by
  cases i <;> simp [writes, bulkIndexParts]

theorem stack_mem_writes (h : Part.stack ∈ writes i s) : i = .ret ∨ ∃ a, i = .call a := by
  cases i <;> simp_all [writes, bulkIndexParts]

theorem grid_mem_writes (h : Part.grid ∈ writes i s) : i = .cls ∨ ∃ x y n, i = .drw x y n := by
  cases i <;> simp_all [writes, bulkIndexParts]

theorem delay_mem_writes (h : Part.delay ∈ writes i s) : ∃ x, i = .ldDTVx x := by
  cases i <;> simp_all [writes, bulkIndexParts]

theorem sound_mem_writes (h : Part.sound ∈ writes i s) : ∃ x, i = .ldSTVx x := by
  cases i <;> simp_all [writes, bulkIndexParts]

theorem index_mem_writes (h : Part.index ∈ writes i s) :
    (∃ a, i = .ldI a) ∨ (∃ x, i = .addI x) ∨ (∃ x, i = .ldF x) ∨
      (s.cfg.qIndexInc = true ∧ ((∃ x, i = .storeRegs x) ∨ ∃ x, i = .loadRegs x)) := by
  cases i <;> simp_all [writes, bulkIndexParts]

theorem reg_mem_writes {r : Nibble} (h : Part.reg r ∈ writes i s) : mayWriteReg i r := by
  cases i
  case loadRegs x =>
    have hr : ∃ k < x.toNat + 1, BitVec.ofNat 4 k = r := by simpa [writes, bulkIndexParts] using h
    obtain ⟨k, hk, rfl⟩ := hr
    exact Nat.le_trans (Nat.mod_le k (2 ^ 4)) (Nat.le_of_lt_succ hk)
  all_goals simp_all [writes, bulkIndexParts, mayWriteReg]

theorem bytes_mem_writes {a n : Nat} (h : Part.bytes a n ∈ writes i s) :
    a = s.dataAddr 0 ∧ ((∃ x, i = .ldB x ∧ n = 3) ∨ ∃ x, i = .storeRegs x ∧ n = x.toNat + 1) := by
  cases i <;> simp_all [writes, bulkIndexParts]

/-! ### The fields outside OnlyWrites -/

/-- Memory as a list is kept but by the two stores, and the draw counter but by RND. -/
theorem after_M_draws (i : Instr) (s : State) :
    ((∀ x, i ≠ .ldB x ∧ i ≠ .storeRegs x) → (after i s).M = s.M) ∧
      ((∀ x nn, i ≠ .rnd x nn) → (after i s).draws = s.draws) := by
  cases hf : instrFault i s with
  | some f => rw [after_of_instrFault hf]; exact ⟨fun _ => rfl, fun _ => rfl⟩
  | none =>
    cases i
    case ldB x => rw [after_ldB hf]; exact ⟨fun h => absurd rfl (h x).1, fun _ => rfl⟩
    case storeRegs x => rw [after_storeRegs hf]; exact ⟨fun h => absurd rfl (h x).2, fun _ => rfl⟩
    case rnd x nn => exact ⟨fun _ => rfl, fun h => absurd rfl (h x nn)⟩
    case ret => obtain ⟨a, rest, -, ht⟩ := after_ret hf; rw [ht]; exact ⟨fun _ => rfl, fun _ => rfl⟩
    case call => rw [after_call hf]; exact ⟨fun _ => rfl, fun _ => rfl⟩
    case drw => rw [after_drw hf]; exact ⟨fun _ => rfl, fun _ => rfl⟩
    case loadRegs => rw [after_loadRegs hf]; exact ⟨fun _ => rfl, fun _ => rfl⟩
    case ldVxK x => obtain ⟨v, ht⟩ | ht := after_ldVxK x s <;> rw [ht] <;> exact ⟨fun _ => rfl, fun _ => rfl⟩
    case addI x => obtain ⟨a, ht | ht⟩ := after_addI x s <;> rw [ht] <;> exact ⟨fun _ => rfl, fun _ => rfl⟩
    case seImm | sneImm | seReg | sneReg | skp | sknp =>
      exact ⟨fun _ => s.skipIf_M _, fun _ => s.skipIf_draws _⟩
    all_goals exact ⟨fun _ => rfl, fun _ => rfl⟩

theorem after_agenda (i : Instr) (s : State) : (after i s).agenda = s.agenda := by
  have h : exec i s = replaceAgenda s.agenda (exec i s) := exec_withAgenda i s s.agenda
  rw [exec_eq_after] at h
  have he : after i s = { after i s with agenda := s.agenda } := Host.Outcome.next.inj h
  exact (congrArg State.agenda he :)

end

/-- Settles O22: a part that changed is among those the instruction writes, and only the listed instructions list it; the
grid is compared pixel by pixel. -/
theorem onlyNamedInstructionsWrite : Obligations.OnlyNamedInstructionsWrite := by
  unfold Obligations.OnlyNamedInstructionsWrite
  intro i s t h
  have hframe := onlyWrites_exec h
  obtain rfl := after_of_exec h
  have hmem {p : Part} (hp : p ∉ writes i s) (hpf : p ≠ .fault) : p ∉ Part.fault :: writes i s :=
    fun hm => (List.mem_cons.mp hm).elim hpf hp
  refine ⟨fun hS => ?_, fun hP => ?_, fun hM => ?_, fun hDT => ?_, fun hST => ?_, fun hI => ?_, hframe.keys, hframe.config,
    after_agenda i s, fun hdraws => ?_⟩
  · by_contra hno
    exact hS (hframe.stack (hmem (fun hm => hno (stack_mem_writes hm)) nofun))
  · by_contra hno
    exact hP (Grid.ext_pixel fun r c _ _ => hframe.grid (hmem (fun hm => hno (grid_mem_writes hm)) nofun) r c)
  · by_contra hno
    obtain ⟨hB, hR⟩ := not_or.mp hno
    exact hM ((after_M_draws i s).1 fun x => ⟨fun e => hB ⟨x, e⟩, fun e => hR ⟨x, e⟩⟩)
  · by_contra hno
    exact hDT (hframe.delay (hmem (fun hm => hno (delay_mem_writes hm)) nofun))
  · by_contra hno
    exact hST (hframe.sound (hmem (fun hm => hno (sound_mem_writes hm)) nofun))
  · by_contra hno
    exact hI (hframe.index (hmem (fun hm => hno (index_mem_writes hm)) nofun))
  · by_contra hno
    exact hdraws ((after_M_draws i s).2 fun x nn e => hno ⟨x, nn, e⟩)

/-- Settles O23: a register that changed is among the parts the instruction writes, and those are the ones R21 and R22 list. -/
theorem registersWrittenAreTheListed : Obligations.RegistersWrittenAreTheListed := by
  unfold Obligations.RegistersWrittenAreTheListed
  intro i s t r h hr
  by_contra hno
  refine hr ((onlyWrites_exec h).regs r fun hm => ?_)
  exact (List.mem_cons.mp hm).elim nofun fun hm => hno (reg_mem_writes hm)

/-- Settles O25: a byte that changed is in a stretch of bytes the instruction writes; since the instruction then raised no
fault, its highest address is in the address space. -/
theorem storesStayInTheirBytes : Obligations.StoresStayInTheirBytes := by
  unfold Obligations.StoresStayInTheirBytes
  intro i s t b h hb
  obtain rfl := after_of_exec h
  cases hf : instrFault i s with
  | some f => rw [after_of_instrFault hf] at hb; exact absurd rfl hb
  | none =>
    by_contra hno
    refine hb ((onlyWrites_after hf).bytes b fun a n hm hab => hno ?_)
    obtain ⟨rfl, hi⟩ := bytes_mem_writes hm
    refine ⟨n, hi, hab.1, by simpa only [State.dataAddr, Nat.add_zero] using hab.2, ?_⟩
    rcases hi with ⟨x, rfl, rfl⟩ | ⟨x, rfl, rfl⟩
    all_goals
      have hhi := dataFault_eq_none_iff.mp hf
      simp only [State.dataAddr, topAddr] at hhi hab
      omega

/-! ### Where pc goes -/

section
variable {s : State} {i : Instr}

/-- An instruction that does not move pc itself and raises no fault goes on to the next word. -/
theorem after_pc (hmoves : ¬ movesPc i) (hf : instrFault i s = none) : (after i s).pc = s.pc + 2 := by
  cases i
  case drw => rw [after_drw hf]; rfl
  case ldB => rw [after_ldB hf]; rfl
  case storeRegs => rw [after_storeRegs hf]; rfl
  case loadRegs => rw [after_loadRegs hf]; rfl
  case addI x => obtain ⟨a, ht | ht⟩ := after_addI x s <;> rw [ht] <;> rfl
  case ret | sys | jp | call | jpV0 | seImm | sneImm | seReg | sneReg | skp | sknp | ldVxK => exact absurd trivial hmoves
  all_goals rfl

/-- The record after an instruction: the one it raises, else the one before. -/
theorem after_F (i : Instr) (s : State) : (after i s).F = (instrFault i s).or s.F := by
  cases hf : instrFault i s with
  | none => exact (onlyWrites_after hf).fault fault_notMem_writes
  | some f => rw [after_of_instrFault hf]; rfl

end

/-- Settles O24: with a fault the state is the old one but for F; without one pc is at the next word. -/
theorem otherInstructionsAdvancePc : Obligations.OtherInstructionsAdvancePc := by
  unfold Obligations.OtherInstructionsAdvancePc
  intro i s t hF h hmoves
  obtain rfl := after_of_exec h
  rw [after_F, hF, Option.or_none]
  cases hf : instrFault i s with
  | none => exact after_pc hmoves hf
  | some f => rw [after_of_instrFault hf]; rfl

end Sys2Proof.Machine
end

section
/-! The invariant (10_state.md R25, R46; 60_exceptions.md R170): every instruction that could be fetched keeps it, so every step
does, and every launch meets it. -/

namespace Sys2Proof.Machine

/-! ### The agents other than the engine -/

/-- What only the engine changes: everything but DT, ST, K and the model's own fields. -/
structure SameCore (s t : State) : Prop where
  V : t.V = s.V
  I : t.I = s.I
  pc : t.pc = s.pc
  S : t.S = s.S
  P : t.P = s.P
  M : t.M = s.M
  F : t.F = s.F
  cfg : t.cfg = s.cfg

section
variable {s t u : State}

theorem SameCore.refl (s : State) : SameCore s s := ⟨rfl, rfl, rfl, rfl, rfl, rfl, rfl, rfl⟩

theorem SameCore.trans (h : SameCore s t) (h' : SameCore t u) : SameCore s u :=
  ⟨h'.V.trans h.V, h'.I.trans h.I, h'.pc.trans h.pc, h'.S.trans h.S, h'.P.trans h.P, h'.M.trans h.M, h'.F.trans h.F,
    h'.cfg.trans h.cfg⟩

theorem sameCore_takeTurn (s : State) : SameCore s s.takeTurn := ⟨rfl, rfl, rfl, rfl, rfl, rfl, rfl, rfl⟩

/-- A turn of another agent than the engine (20_memory.md R60). -/
theorem sameCore_of_turnStep {o : Turn} (ho : o ≠ .engine) (h : turnStep o s = .next t) : SameCore s t := by
  cases o
  case engine => exact absurd rfl ho
  case shutdown => cases h
  all_goals
    obtain rfl := Host.Outcome.next.inj h
    exact ⟨rfl, rfl, rfl, rfl, rfl, rfl, rfl, rfl⟩

/-- A step is the engine's, at the state with the turn taken, or it is another agent's and changes nothing of the core. -/
theorem step_engine_or_sameCore (h : step s = .next t) :
    (s.nextTurn = .engine ∧ engineStep s.takeTurn = .next t) ∨ (s.nextTurn ≠ .engine ∧ SameCore s t) := by
  by_cases hn : s.nextTurn = .engine
  · rw [step, hn] at h
    exact .inl ⟨hn, h⟩
  · exact .inr ⟨hn, (sameCore_takeTurn s).trans (sameCore_of_turnStep hn h)⟩

/-- The invariant speaks of the core only. -/
theorem State.Inv.of_sameCore (h : s.Inv) (hc : SameCore s t) : t.Inv where
  memory := hc.M ▸ h.memory
  pc := hc.pc ▸ h.pc
  stack := hc.S ▸ h.stack
  depth := by rw [hc.S, hc.cfg]; exact h.depth
  fault := hc.F ▸ h.fault

/-- A raised fault keeps it when the record is shaped. -/
theorem State.Inv.of_fault (h : s.Inv) {f : FaultRecord} (hf : f.Shaped) : { s with F := some f }.Inv where
  memory := h.memory
  pc := h.pc
  stack := h.stack
  depth := h.depth
  fault := by rintro _ ⟨⟩; exact hf

end

/-! ### One instruction -/

section
variable {s : State} {i : Instr}

/-- The address after a word that could be fetched, and the one after that (10_state.md R25). -/
theorem pc_add_toNat (hpc : s.pc.toNat + 1 ≤ topAddr) : (s.pc + 2).toNat = s.pc.toNat + 2 ∧
    (s.pc + 2 + 2).toNat = s.pc.toNat + 4 := by
  unfold topAddr at hpc
  constructor <;> bv_omega

theorem zextAddr_toNat (a : Addr) : (zextAddr a).toNat = a.toNat := BitVec.toNat_setWidth_of_le (by decide)

/-- The target of JP V0 is the unwrapped sum (R118). -/
theorem jpV0_target_toNat (a : Addr) (b : Byte) : (zextAddr a + zextByte b).toNat = a.toNat + b.toNat := by
  unfold zextAddr zextByte
  bv_omega

theorem after_pc_le (hpc : s.pc.toNat + 1 ≤ topAddr) (hS : ∀ a ∈ s.S, a.toNat ≤ 0x1000) (hf : instrFault i s = none) :
    (after i s).pc.toNat ≤ 0x10FE := by
  obtain ⟨hnext, hskip⟩ := pc_add_toNat hpc
  have htop : topAddr = 0xFFF := rfl
  have hskipIf (b : Bool) : (s.skipIf b).pc.toNat ≤ 0x10FE := by
    rw [s.skipIf_pc]
    split <;> omega
  by_cases hmoves : movesPc i
  · cases i
    case ret =>
      obtain ⟨a, rest, hcons, ht⟩ := after_ret hf
      rw [ht]
      exact (hS a (hcons ▸ List.mem_cons_self)).trans (by decide)
    case sys => cases hf
    case jp nnn =>
      have := nnn.isLt
      exact (zextAddr_toNat nnn).trans_le (by omega)
    case call nnn =>
      have := nnn.isLt
      rw [after_call hf]
      exact (zextAddr_toNat nnn).trans_le (by omega)
    case jpV0 nnn =>
      have := nnn.isLt
      have := (s.reg (s.jumpReg nnn)).isLt
      exact (jpV0_target_toNat nnn _).trans_le (by omega)
    case seImm | sneImm | seReg | sneReg | skp | sknp => exact hskipIf _
    case ldVxK x =>
      obtain ⟨v, ht⟩ | ht := after_ldVxK x s <;> rw [ht]
      · exact hskipIf false
      · omega
    all_goals exact hmoves.elim
  · rw [after_pc hmoves hf]
    omega

/-- The two stores end inside the address space, so memory stays canonical. -/
theorem after_M_wf (hM : s.M.wf) (hf : instrFault i s = none) : (after i s).M.wf := by
  have hstore {bs : List Byte} (h : s.dataAddr (bs.length - 1) ≤ topAddr) (hpos : 0 < bs.length) :
      (s.M.writeBytes (s.dataAddr 0) bs).wf :=
    Memory.writeBytes_wf hM bs (by simp only [State.dataAddr] at h ⊢; omega)
  by_cases hother : ∀ x, i ≠ .ldB x ∧ i ≠ .storeRegs x
  · rw [(after_M_draws i s).1 hother]; exact hM
  · simp only [not_forall, not_and_or, not_not] at hother
    obtain ⟨x, rfl | rfl⟩ := hother
    · rw [after_ldB hf]
      exact hstore (dataFault_eq_none_iff.mp hf) (Nat.succ_pos _)
    · have hlen := s.regsUpTo_length x
      rw [after_storeRegs hf]
      exact hstore (by rw [hlen]; exact dataFault_eq_none_iff.mp hf) (by omega)

/-- The stack is the old one, the old one popped, or, below any bound, the old one with `ia + 2` pushed. -/
theorem after_S (hf : instrFault i s = none) : (after i s).S = s.S ∨ (∃ a, s.S = a :: (after i s).S) ∨
    (s.cfg.stackLimit ≠ some s.S.length ∧ (after i s).S = (s.pc + 2) :: s.S) := by
  by_cases hmem : Part.stack ∈ writes i s
  · obtain rfl | ⟨nnn, rfl⟩ := stack_mem_writes hmem
    · obtain ⟨a, rest, hcons, ht⟩ := after_ret hf
      rw [ht]
      exact .inr (.inl ⟨a, hcons⟩)
    · rw [after_call hf]
      exact .inr (.inr ⟨instrFault_call_eq_none_iff.mp hf, rfl⟩)
  · exact .inl ((onlyWrites_after hf).stack hmem)

/-- An instruction whose word could be fetched keeps the invariant. -/
theorem State.Inv.after (h : s.Inv) (hpc : s.pc.toNat + 1 ≤ topAddr) : (after i s).Inv := by
  cases hf : instrFault i s with
  | some f => rw [after_of_instrFault hf]; exact h.of_fault (instrFault_shaped hf)
  | none =>
    have hframe := onlyWrites_after hf
    have hF : (Machine.after i s).F = s.F := hframe.fault fault_notMem_writes
    refine ⟨after_M_wf h.memory hf, after_pc_le hpc h.stack hf, ?_, ?_, hF ▸ h.fault⟩
    · have hpush : (s.pc + 2).toNat ≤ 0x1000 := by
        rw [(pc_add_toNat hpc).1]
        unfold topAddr at hpc
        omega
      obtain hS | ⟨a, hS⟩ | ⟨-, hS⟩ := after_S hf
      · rw [hS]; exact h.stack
      · exact fun b hb => h.stack b (hS ▸ List.mem_cons_of_mem a hb)
      · rw [hS]; exact List.forall_mem_cons.mpr ⟨hpush, h.stack⟩
    · intro k hk
      rw [hframe.config] at hk
      have hk' := h.depth k hk
      obtain hS | ⟨a, hS⟩ | ⟨hroom, hS⟩ := after_S hf
      · rwa [hS]
      · rw [hS, List.length_cons] at hk'; omega
      · have hne : k ≠ s.S.length := fun e => hroom (e ▸ hk)
        rw [hS, List.length_cons]
        omega

end

/-! ### One step -/

section
variable {s t : State} {w : Word}

theorem fetch_eq_none_iff : s.fetch = none ↔ topAddr < s.pc.toNat + 1 := by
  simp [State.fetch, State.fetchable]

theorem fetch_eq_some_iff : s.fetch = some w ↔ s.pc.toNat + 1 ≤ topAddr ∧ s.M.wordAt s.pc.toNat = w := by
  simp [State.fetch, State.fetchable]

/-- An engine step keeps the invariant: its two own faults are shaped, and any other step is an instruction's. -/
theorem State.Inv.engineStep (h : s.Inv) (hst : engineStep s = .next t) : t.Inv := by
  obtain ⟨-, ⟨hfetch, rfl⟩ | ⟨w, hfetch, ⟨e, -, rfl⟩ | ⟨i, -, hexec⟩⟩⟩ := engineStep_next hst
  · exact h.of_fault ⟨rfl, rfl, Nat.lt_succ_iff.mp (fetch_eq_none_iff.mp hfetch)⟩
  · exact h.of_fault ⟨rfl, rfl⟩
  · exact after_of_exec hexec ▸ h.after (fetch_eq_some_iff.mp hfetch).1

end

/-- Settles O16: the engine's step keeps the invariant by its cases, and the other agents change nothing the invariant speaks
of. -/
theorem stepKeepsInvariant : Obligations.StepKeepsInvariant := by
  unfold Obligations.StepKeepsInvariant
  intro s t h hst
  obtain ⟨-, hengine⟩ | ⟨-, hcore⟩ := step_engine_or_sameCore hst
  · exact (h.of_sameCore (sameCore_takeTurn s)).engineStep hengine
  · exact h.of_sameCore hcore

end Sys2Proof.Machine
end

section
/-! Reset and launch (10_state.md R44, R47; 70_reset_and_hazards.md R190, R191). -/

namespace Sys2Proof.Machine

/-! ### The invariant at the start -/

/-- A state with nothing on the stack, no fault, pc at an address and canonical memory meets the invariant. -/
theorem inv_of_fresh {s : State} {a : Addr} (hM : s.M.wf) (hpc : s.pc = zextAddr a) (hS : s.S = []) (hF : s.F = none) :
    s.Inv where
  memory := hM
  pc := by
    have := a.isLt
    rw [hpc, zextAddr_toNat]
    omega
  stack := by rw [hS]; exact nofun
  depth := by rw [hS]; exact fun k _ => Nat.zero_le k
  fault := by rw [hF]; exact nofun

/-- Settles O17: after reset the stack is empty, there is no fault, memory lists no byte and pc is LOAD_ADDR. -/
theorem resetMeetsInvariant : Obligations.ResetMeetsInvariant :=
  inv_of_fresh (a := hardwareConfig.loadAddr) Memory.nil_wf rfl rfl rfl

/-- Settles O19: the vectors of reset hold one value throughout, and the other fields are read off. -/
theorem resetValues : Obligations.ResetValues := by
  unfold Obligations.ResetValues
  have hreg (r : Nibble) : State.reset.reg r = 0x00#8 := Vector.getElem_replicate _
  have hkey (k : Nibble) : State.reset.keyDown k = false := Vector.getElem_replicate _
  exact ⟨hreg, rfl, rfl, rfl, rfl, Grid.pixel_clear, hkey, rfl, rfl, rfl⟩

/-! ### The loader -/

section
variable {cfg : Config} {i0 : Addr} {initial program : List Byte} {agenda : List Turn} {s : State}

theorem programFits_iff {a len : Nat} :
    programFits a len = true ↔ a + len ≤ 4096 ∧ (len = 0 ∨ 0x09F < a ∨ a + len ≤ 0x050) := by
  simp [programFits, or_assoc]

/-- The loader's font check says that no byte of the program goes to 0x050 to 0x09F. -/
theorem not_coversFont_iff : ¬ CoversFont cfg program ↔
    program.length = 0 ∨ 0x09F < cfg.loadAddr.toNat ∨ cfg.loadAddr.toNat + program.length ≤ 0x050 := by
  constructor
  · intro hno
    by_contra hfit
    exact hno ⟨0x050 - cfg.loadAddr.toNat, by omega, by omega, by omega⟩
  · rintro hfit ⟨k, hk, hlo, hhi⟩
    omega

/-- When a launch gives a state, and which one. -/
theorem launch_eq_some_iff : State.launch cfg i0 initial program agenda = some s ↔
    (cfg.wf ∧ ¬ CoversFont cfg program ∧ cfg.loadAddr.toNat + program.length ≤ 4096) ∧ { State.reset with
      I := i0, pc := cfg.loadAddr.setWidth 16, M := launchMemory cfg initial program, cfg := cfg, agenda := agenda } = s := by
  rw [State.launch, Option.ite_none_right_eq_some, Option.some_inj, programFits_iff, not_coversFont_iff,
    and_comm (a := _ ≤ 4096)]

/-- The three stretches of bytes a launch writes lie inside the address space. -/
theorem launchMemory_wf (hwf : cfg.wf) (hlen : cfg.loadAddr.toNat + program.length ≤ 4096) :
    (launchMemory cfg initial program).wf := by
  have htop : topAddr + 1 = 4096 := rfl
  have hinit : (initial.take 4096).length ≤ 4096 := List.length_take_le _ _
  have hfont : cfg.font.length = 80 := hwf.1
  refine Memory.writeBytes_wf (Memory.writeBytes_wf (Memory.writeBytes_wf Memory.nil_wf _ ?_) _ ?_) _ ?_ <;> omega

/-- The program is written last. -/
theorem launchMemory_read_program {k : Nat} (hk : k < program.length) :
    some ((launchMemory cfg initial program).read (cfg.loadAddr.toNat + k)) = program[k]? := by
  rw [launchMemory, Memory.read_writeBytes, if_pos ⟨Nat.le_add_right _ k, Nat.add_lt_add_left hk _⟩,
    Nat.add_sub_cancel_left, List.getD_eq_getElem _ _ hk, List.getElem?_eq_getElem hk]

/-- The font shows through a program that does not cover it. -/
theorem launchMemory_read_font (hwf : cfg.wf) (hcovers : ¬ CoversFont cfg program) {k : Nat} (hk : k < 80) :
    some ((launchMemory cfg initial program).read (0x050 + k)) = cfg.font[k]? := by
  have hkf : k < cfg.font.length := hwf.1 ▸ hk
  have hout := not_coversFont_iff.mp hcovers
  rw [launchMemory, Memory.read_writeBytes, if_neg (by omega), Memory.read_writeBytes, if_pos (by omega),
    Nat.add_sub_cancel_left, List.getD_eq_getElem _ _ hkf, List.getElem?_eq_getElem hkf]

end

/-- Settles O18: a launched state is fresh, and its memory is written inside the address space. -/
theorem everyLaunchMeetsInvariant : Obligations.EveryLaunchMeetsInvariant := by
  unfold Obligations.EveryLaunchMeetsInvariant
  intro cfg i0 initial program agenda s h
  obtain ⟨⟨hwf, -, hlen⟩, rfl⟩ := launch_eq_some_iff.mp h
  exact inv_of_fresh (a := cfg.loadAddr) (launchMemory_wf hwf hlen) rfl rfl rfl

/-- Settles O20: a launch exists exactly when the program fits and leaves the font alone; then the last bytes written at the
program's addresses are the program's and those at the font's addresses are FONT's. -/
theorem launchLoadsProgramAndFont : Obligations.LaunchLoadsProgramAndFont := by
  unfold Obligations.LaunchLoadsProgramAndFont
  intro cfg i0 initial program agenda hwf
  refine ⟨fun hlong => ?_, fun hcovers => ?_, fun hcovers hlen => ?_⟩
  · refine Option.eq_none_iff_forall_ne_some.mpr fun s h => ?_
    obtain ⟨⟨-, -, hlen⟩, -⟩ := launch_eq_some_iff.mp h
    omega
  · refine Option.eq_none_iff_forall_ne_some.mpr fun s h => ?_
    obtain ⟨⟨-, hno, -⟩, -⟩ := launch_eq_some_iff.mp h
    exact hno hcovers
  · exact ⟨_, launch_eq_some_iff.mpr ⟨⟨hwf, hcovers, hlen⟩, rfl⟩, zextAddr_toNat cfg.loadAddr, rfl,
      fun k hk => launchMemory_read_program hk, fun k hk => launchMemory_read_font hwf hcovers hk⟩

end Sys2Proof.Machine
end

section
/-! The step (30_encoding.md R72; 20_memory.md R60): the engine's step by what it fetches, its fault and no other
(60_exceptions.md R170 to R177), and the steps of the timer and the host. -/

namespace Sys2Proof.Machine

section
variable {s t : State} {w : Word} {i : Instr} {f : FaultRecord}

/-! ### The engine's step, one equation a case -/

theorem engineStep_halted (hF : s.F = some f) : engineStep s = .fault (.engineHalted f) := by
  rw [engineStep, hF]

theorem engineStep_noFetch (hF : s.F = none) (hfetch : s.fetch = none) :
    engineStep s = .next (s.raise .addressOutOfRangeFetch none none) := by
  rw [engineStep, hF, hfetch]

theorem engineStep_unknown {e : DecodeError} (hF : s.F = none) (hfetch : s.fetch = some w) (hdec : decode w = .error e) :
    engineStep s = .next (s.raise .unknownInstruction (some w) none) := by
  rw [engineStep, hF, hfetch]
  dsimp only
  rw [hdec]

theorem engineStep_exec (hF : s.F = none) (hfetch : s.fetch = some w) (hdec : decode w = .ok i) :
    engineStep s = exec i s := by
  rw [engineStep, hF, hfetch]
  dsimp only
  rw [hdec]

theorem step_of_engine (hn : s.nextTurn = .engine) : step s = engineStep s.takeTurn := by
  rw [step, hn]
  rfl

/-- On its turn the engine runs the instruction it decodes. -/
theorem step_exec (hn : s.nextTurn = .engine) (hF : s.F = none) (hfetch : s.fetch = some w) (hdec : decode w = .ok i) :
    step s = exec i s.takeTurn :=
  (step_of_engine hn).trans (engineStep_exec (s := s.takeTurn) hF hfetch hdec)

theorem takeTurn_of_nil (h : s.agenda = []) : s.takeTurn = s := by
  rw [State.takeTurn, h, List.tail_nil, ← h]

theorem nextTurn_of_nil (h : s.agenda = []) : s.nextTurn = .engine := by
  rw [State.nextTurn, h, List.headD_nil]

/-- An engine step raises a fault of its own and writes F only, or it is an instruction's. -/
theorem engineStep_onlyWrites_or_exec (h : engineStep s = .next t) :
    OnlyWrites s t [.fault] ∨ ∃ w i, s.fetch = some w ∧ decode w = .ok i ∧ exec i s = .next t := by
  obtain ⟨-, ⟨-, rfl⟩ | ⟨w, hfetch, ⟨e, -, rfl⟩ | ⟨i, hdec, hexec⟩⟩⟩ := engineStep_next h
  · exact .inl (onlyWrites_withF s _)
  · exact .inl (onlyWrites_withF s _)
  · exact .inr ⟨w, i, hfetch, hdec, hexec⟩

end

theorem decodeBytes_pair {b1 b2 : Byte} {i : Instr} (h : decodeBytes [b1, b2] = .ok (i, [])) :
    decode (Word.ofBytes b1 b2) = .ok i := by
  rw [decodeBytes] at h
  cases hdec : decode (Word.ofBytes b1 b2) with
  | error e => rw [hdec] at h; cases h
  | ok j => rw [hdec] at h; cases h; rfl

/-- Settles O6: the two bytes are the word the engine fetches. -/
theorem stepRunsDecodedInstruction : Obligations.StepRunsDecodedInstruction := by
  unfold Obligations.StepRunsDecodedInstruction
  intro s i hF hn hpc hbytes
  have hstep := step_exec hn hF (State.fetch_in hpc) (decodeBytes_pair hbytes)
  exact ⟨hstep, fun hnil => by rw [hstep, takeTurn_of_nil hnil]⟩

/-! ### The fault of an engine step -/

theorem rowDecodes_call : RowDecodes 0x2000#16 0xF000#16 (fun w => .call w.nnn) := rowDecodes_of_clash (k := 4) rfl (by decide)
theorem rowDecodes_drw : RowDecodes 0xD000#16 0xF000#16 (fun w => .drw w.x w.y w.n) :=
  rowDecodes_of_clash (k := 23) rfl (by decide)
theorem rowDecodes_ldB : RowDecodes 0xF033#16 0xF0FF#16 (fun w => .ldB w.x) := rowDecodes_of_clash (k := 32) rfl (by decide)
theorem rowDecodes_storeRegs : RowDecodes 0xF055#16 0xF0FF#16 (fun w => .storeRegs w.x) :=
  rowDecodes_of_clash (k := 33) rfl (by decide)
theorem rowDecodes_loadRegs : RowDecodes 0xF065#16 0xF0FF#16 (fun w => .loadRegs w.x) :=
  rowDecodes_of_clash (k := 34) rfl (by decide)

/-- The fault a fetched word calls for: the one of the instruction it decodes to, or the unknown word's. -/
def wordFault (s : State) (w : Word) : Option FaultRecord :=
  match decode w with
  | .ok i => instrFault i s
  | .error _ => some ⟨.unknownInstruction, s.pc, some w, none⟩

section
variable {s t : State} {w : Word} {i : Instr} {f : FaultRecord}

theorem wordFault_of_decode (h : decode w = .ok i) : wordFault s w = instrFault i s := by rw [wordFault, h]

/-- An instruction whose word is of none of the listed forms raises no fault of its own. -/
theorem instrFault_eq_none_of_word (hret : encode i ≠ 0x00EE#16) (h0 : encode i &&& 0xF000#16 ≠ 0x0000#16)
    (h2 : encode i &&& 0xF000#16 ≠ 0x2000#16) (hD : encode i &&& 0xF000#16 ≠ 0xD000#16)
    (h33 : encode i &&& 0xF0FF#16 ≠ 0xF033#16) (h55 : encode i &&& 0xF0FF#16 ≠ 0xF055#16)
    (h65 : encode i &&& 0xF0FF#16 ≠ 0xF065#16) : instrFault i s = none := by
  cases i
  case ret => exact absurd rfl hret
  case sys nnn => exact (h0 (beq_iff_eq.mp (Laws.EncodeSelectsRow.selects_A 0x0#4 nnn rfl))).elim
  case call nnn => exact (h2 (beq_iff_eq.mp (Laws.EncodeSelectsRow.selects_A 0x2#4 nnn rfl))).elim
  case drw x y n => exact (hD (beq_iff_eq.mp (Laws.EncodeSelectsRow.selects_XYN 0xD#4 x y n rfl))).elim
  case ldB x => exact (h33 (beq_iff_eq.mp (Laws.EncodeSelectsRow.selects_X 0xF#4 x 0x33#8 rfl))).elim
  case storeRegs x => exact (h55 (beq_iff_eq.mp (Laws.EncodeSelectsRow.selects_X 0xF#4 x 0x55#8 rfl))).elim
  case loadRegs x => exact (h65 (beq_iff_eq.mp (Laws.EncodeSelectsRow.selects_X 0xF#4 x 0x65#8 rfl))).elim
  all_goals rfl

/-- The spec's list names a fault by the word; the instruction names the same one by its operands. -/
theorem specFault_of_fetch (hfetch : s.fetch = some w) : specFault s = wordFault s w := by
  obtain ⟨hpc, rfl⟩ := fetch_eq_some_iff.mp hfetch
  have hword : s.M.read s.pc.toNat ++ s.M.read (s.pc.toNat + 1) = s.M.wordAt s.pc.toNat := rfl
  have hout : ¬ s.pc.toNat + 1 > 0xFFF := Nat.not_lt.mpr hpc
  unfold specFault
  simp only [if_neg hout, hword]
  generalize s.M.wordAt s.pc.toNat = w
  by_cases hcls : w = 0x00E0#16
  · rw [if_pos hcls, hcls, wordFault_of_decode (i := .cls) (by decide)]
    rfl
  rw [if_neg hcls]
  by_cases hret : w = 0x00EE#16
  · rw [if_pos hret, hret, wordFault_of_decode (i := .ret) (by decide)]
    rfl
  rw [if_neg hret]
  by_cases h0 : w &&& 0xF000#16 = 0x0000#16
  · have hdec := decode_sys h0 hcls hret
    rw [if_pos h0, wordFault_of_decode hdec, instrFault, encode_of_decode hdec]
  rw [if_neg h0]
  by_cases h2 : w &&& 0xF000#16 = 0x2000#16
  · have hdec := rowDecodes_call w h2
    rw [if_pos h2, wordFault_of_decode hdec, instrFault, encode_of_decode hdec]
  rw [if_neg h2]
  by_cases hD : w &&& 0xF000#16 = 0xD000#16
  · have hdec := rowDecodes_drw w hD
    have hn : w.n = 0x0#4 ↔ w.n.toNat = 0 := BitVec.toNat_eq
    rw [if_pos hD, wordFault_of_decode hdec, instrFault, dataFault, encode_of_decode hdec]
    refine ite_congr (propext hn) (fun _ => rfl) fun hn0 => ?_
    rw [State.dataAddr, Nat.add_sub_assoc (Nat.one_le_iff_ne_zero.mpr hn0)]
    rfl
  rw [if_neg hD]
  by_cases h33 : w &&& 0xF0FF#16 = 0xF033#16
  · have hdec := rowDecodes_ldB w h33
    rw [if_pos h33, wordFault_of_decode hdec, instrFault, dataFault, encode_of_decode hdec]
    rfl
  rw [if_neg h33]
  by_cases h55 : w &&& 0xF0FF#16 = 0xF055#16
  · have hdec := rowDecodes_storeRegs w h55
    rw [if_pos (.inl h55), wordFault_of_decode hdec, instrFault, dataFault, encode_of_decode hdec]
    rfl
  by_cases h65 : w &&& 0xF0FF#16 = 0xF065#16
  · have hdec := rowDecodes_loadRegs w h65
    rw [if_pos (.inr h65), wordFault_of_decode hdec, instrFault, dataFault, encode_of_decode hdec]
    rfl
  rw [if_neg (not_or.mpr ⟨h55, h65⟩)]
  obtain ⟨hillegal, hlegal⟩ := illegalWordsExactly w
  cases hill : illegalWord w with
  | true => rw [if_pos rfl, wordFault, hillegal hill]
  | false =>
    obtain ⟨i, hdec⟩ := hlegal hill
    rw [if_neg Bool.false_ne_true, wordFault_of_decode hdec]
    obtain rfl := encode_of_decode hdec
    exact (instrFault_eq_none_of_word hret h0 h2 hD h33 h55 h65).symm

/-- An engine that is not halted always answers a next state, with the listed fault. -/
theorem engineStep_specFault (hF : s.F = none) : ∃ t, engineStep s = .next t ∧ t.F = specFault s := by
  cases hfetch : s.fetch with
  | none =>
    have hspec : specFault s = some ⟨.addressOutOfRangeFetch, s.pc, none, none⟩ := if_pos (fetch_eq_none_iff.mp hfetch)
    exact ⟨_, engineStep_noFetch hF hfetch, hspec.symm⟩
  | some w =>
    rw [specFault_of_fetch hfetch]
    cases hdec : decode w with
    | error e =>
      have hword : wordFault s w = some ⟨.unknownInstruction, s.pc, some w, none⟩ := by rw [wordFault, hdec]
      exact ⟨_, engineStep_unknown hF hfetch hdec, hword.symm⟩
    | ok i =>
      rw [wordFault_of_decode hdec]
      refine ⟨_, (engineStep_exec hF hfetch hdec).trans (exec_eq_after i s), ?_⟩
      rw [after_F, hF, Option.or_none]

/-- A fault that an engine step raises is all it changes. -/
theorem engineStep_precise (h : engineStep s = .next t) (hf : t.F = some f) : t = { s with F := some f } := by
  obtain ⟨hF, ⟨-, rfl⟩ | ⟨w, -, ⟨e, -, rfl⟩ | ⟨i, -, hexec⟩⟩⟩ := engineStep_next h
  · cases hf; rfl
  · cases hf; rfl
  · obtain rfl := after_of_exec hexec
    rw [after_F, hF, Option.or_none] at hf
    exact after_of_instrFault hf

end

/-- Settles O8: the engine's turn is an engine step at a state the list reads the same. -/
theorem faultsExactlyAsListed : Obligations.FaultsExactlyAsListed := by
  unfold Obligations.FaultsExactlyAsListed
  intro s hF hn
  rw [step_of_engine hn]
  exact engineStep_specFault (s := s.takeTurn) hF

/-- Settles O9: the engine's turn is an engine step at the state with the turn taken. -/
theorem faultsArePrecise : Obligations.FaultsArePrecise := by
  unfold Obligations.FaultsArePrecise
  intro s t f _ hn h hf
  exact engineStep_precise ((step_of_engine hn).symm.trans h) hf

/-! ### Halted, ticks and keys -/

/-- Settles O10: a halted engine has no step, and every other turn leaves all but DT, ST and K alone. -/
theorem haltIsFinal : Obligations.HaltIsFinal := by
  unfold Obligations.HaltIsFinal
  intro s f hF
  refine ⟨fun hn => ?_, fun hn => ?_, fun t h => ?_⟩
  · exact (step_of_engine hn).trans (engineStep_halted (s := s.takeTurn) hF)
  · rw [step, hn]; exact ⟨_, rfl⟩
  · obtain ⟨-, hengine⟩ | ⟨-, hc⟩ := step_engine_or_sameCore h
    · exact nomatch (engineStep_halted (s := s.takeTurn) hF).symm.trans hengine
    · exact ⟨hc.F.trans hF, hc.V, hc.I, hc.pc, hc.S, hc.P, hc.M, hc.cfg⟩

/-- A tick takes one from a counter, down to zero. -/
theorem ticked_toNat (b : Byte) : (ticked b).toNat = b.toNat - 1 := by
  unfold ticked
  split <;> bv_omega

/-- Settles O11: the tick's turn is `State.tick` at the state with the turn taken. -/
theorem tickDecrementsBoth : Obligations.TickDecrementsBoth := by
  unfold Obligations.TickDecrementsBoth
  intro s hn
  have hstep : step s = .next s.takeTurn.tick := by rw [step, hn]; rfl
  exact ⟨_, hstep, ticked_toNat s.DT, ticked_toNat s.ST, rfl⟩

/-- Settles O12: the keypad's turn is `State.replaceKeypad` at the state with the turn taken. -/
theorem keypadReplacedWhole : Obligations.KeypadReplacedWhole := by
  unfold Obligations.KeypadReplacedWhole
  intro s k hn
  rw [step, hn]
  rfl

section
variable {s t : State}

/-- The engine moves a timer only by the instruction that writes it, and then to a register's value. -/
theorem engineStep_DT (h : engineStep s = .next t) :
    t.DT = s.DT ∨ ∃ w x, s.fetch = some w ∧ decode w = .ok (.ldDTVx x) ∧ t.DT = s.reg x := by
  obtain hframe | ⟨w, i, hfetch, hdec, hexec⟩ := engineStep_onlyWrites_or_exec h
  · exact .inl (hframe.delay (by simp))
  · by_cases hi : ∃ x, i = .ldDTVx x
    · obtain ⟨x, rfl⟩ := hi
      cases hexec
      exact .inr ⟨w, x, hfetch, hdec, rfl⟩
    · exact .inl ((onlyWrites_exec hexec).delay fun hm => (List.mem_cons.mp hm).elim nofun fun hm => hi (delay_mem_writes hm))

theorem engineStep_ST (h : engineStep s = .next t) :
    t.ST = s.ST ∨ ∃ w x, s.fetch = some w ∧ decode w = .ok (.ldSTVx x) ∧ t.ST = s.reg x := by
  obtain hframe | ⟨w, i, hfetch, hdec, hexec⟩ := engineStep_onlyWrites_or_exec h
  · exact .inl (hframe.sound (by simp))
  · by_cases hi : ∃ x, i = .ldSTVx x
    · obtain ⟨x, rfl⟩ := hi
      cases hexec
      exact .inr ⟨w, x, hfetch, hdec, rfl⟩
    · exact .inl ((onlyWrites_exec hexec).sound fun hm => (List.mem_cons.mp hm).elim nofun fun hm => hi (sound_mem_writes hm))

theorem engineStep_K_cfg (h : engineStep s = .next t) : t.K = s.K ∧ t.cfg = s.cfg := by
  obtain hframe | ⟨w, i, -, -, hexec⟩ := engineStep_onlyWrites_or_exec h
  · exact ⟨hframe.keys, hframe.config⟩
  · exact ⟨(onlyWrites_exec hexec).keys, (onlyWrites_exec hexec).config⟩

end

/-- A counter that did not move, and one that ticked. -/
theorem falls_of_eq {a b : Byte} (h : a = b) : a.toNat ≤ b.toNat ∧ b.toNat ≤ a.toNat + 1 := by
  subst h; omega

theorem falls_of_ticked (b : Byte) : (ticked b).toNat ≤ b.toNat ∧ b.toNat ≤ (ticked b).toNat + 1 := by
  rw [ticked_toNat]; omega

/-- Settles O13: the engine moves a timer only by its own instruction, a tick lowers it by at most one, and no other agent
moves it. -/
theorem timersFallByAtMostOne : Obligations.TimersFallByAtMostOne := by
  unfold Obligations.TimersFallByAtMostOne
  intro s t h
  obtain ⟨hn, hengine⟩ | ⟨-, rfl⟩ | ⟨k, -, rfl⟩ | ⟨-, rfl⟩ := step_next h
  · refine ⟨(engineStep_DT hengine).imp falls_of_eq ?_, (engineStep_ST hengine).imp falls_of_eq ?_⟩
    all_goals rintro ⟨w, x, hfetch, hdec, hval⟩; exact ⟨w, x, hn, hfetch, hdec, hval⟩
  · exact ⟨.inl (falls_of_ticked s.DT), .inl (falls_of_ticked s.ST)⟩
  · exact ⟨.inl (falls_of_eq rfl), .inl (falls_of_eq rfl)⟩
  · exact ⟨.inl (falls_of_eq rfl), .inl (falls_of_eq rfl)⟩

/-- Settles O14: in either order the instruction sets DT to V[x], which the tick does not touch, and the tick lowers the DT it
finds. -/
theorem timerWriteRacesTick : Obligations.TimerWriteRacesTick := by
  unfold Obligations.TimerWriteRacesTick
  intro s x w hF hfetch hdec
  refine ⟨fun ha => ?_, fun ha => ?_⟩
  · have hn : s.nextTurn = .tick := by rw [State.nextTurn, ha]; rfl
    have hn' : s.takeTurn.tick.nextTurn = .engine := by
      rw [State.nextTurn, State.tick_agenda, State.takeTurn_agenda, ha]; rfl
    have htick : step s = .next s.takeTurn.tick := by rw [step, hn]; rfl
    exact ⟨_, _, htick, step_exec hn' hF hfetch hdec, rfl⟩
  · have hn : s.nextTurn = .engine := by rw [State.nextTurn, ha]; rfl
    have hn' : { s.takeTurn.advance with DT := s.reg x }.nextTurn = .tick := by
      show s.agenda.tail.headD .engine = _
      rw [ha]; rfl
    have htick : step { s.takeTurn.advance with DT := s.reg x } =
        .next { s.takeTurn.advance with DT := s.reg x }.takeTurn.tick := by rw [step, hn']; rfl
    exact ⟨_, _, step_exec hn hF hfetch hdec, htick, ticked_toNat (s.reg x)⟩

/-- Settles O21: neither an instruction nor a fault writes K or the configuration, and the host's keypad turn writes K alone. -/
theorem onlyHostWritesKeys : Obligations.OnlyHostWritesKeys := by
  unfold Obligations.OnlyHostWritesKeys
  intro s t h
  obtain ⟨-, hengine⟩ | ⟨-, rfl⟩ | ⟨k, hn, rfl⟩ | ⟨-, rfl⟩ := step_next h
  · obtain ⟨hK, hcfg⟩ := engineStep_K_cfg hengine
    exact ⟨hcfg, .inl hK⟩
  · exact ⟨rfl, .inl rfl⟩
  · exact ⟨rfl, .inr hn⟩
  · exact ⟨rfl, .inl rfl⟩

end Sys2Proof.Machine
end

section
/-! Reading a fault (60_exceptions.md R170, R176) and waiting for a key (44_timers_keys.md R164). -/

namespace Sys2Proof.Machine

/-- The number the host reads tells the codes apart. -/
theorem report_code_iff (f : FaultRecord) (c : FaultCode) : f.report.code = c.number ↔ f.code = c :=
  ⟨fun h => FaultCode.number_inj h, fun h => congrArg FaultCode.number h⟩

/-- Settles O56: the host reads the record's report, and each code has its own number. -/
theorem hostReadsNumberedFault : Obligations.HostReadsNumberedFault := by
  unfold Obligations.HostReadsNumberedFault
  refine fun s => ⟨s.faultOutput_none, fun f hf => ⟨f.report, s.faultOutput_some hf, rfl, rfl, rfl, ?_⟩⟩
  exact ⟨report_code_iff f .unknownInstruction, report_code_iff f .legacyMachineCode, report_code_iff f .stackUnderflow,
    report_code_iff f .addressOutOfRangeFetch, report_code_iff f .addressOutOfRangeData, report_code_iff f .stackOverflow⟩

section
variable {s : State} {k : Nibble}

theorem firstKeyDown_eq_none (h : ∀ k : Nibble, s.keyDown k = false) : s.firstKeyDown = none :=
  List.find?_eq_none.mpr fun k _ => Bool.eq_false_iff.mp (h k)

/-- Key k stands at place k of the keys in rising order, after every lower one. -/
theorem firstKeyDown_eq_some (hk : s.keyDown k = true) (hleast : ∀ j : Nibble, j.toNat < k.toNat → s.keyDown j = false) :
    s.firstKeyDown = some k := by
  have hlen : k.toNat < ((List.range 16).map (BitVec.ofNat 4)).length := by simpa using k.isLt
  refine List.find?_eq_some_iff_getElem.mpr ⟨hk, k.toNat, hlen, by simp, fun j hj => ?_⟩
  have hj16 : j % 16 = j := Nat.mod_eq_of_lt (hj.trans k.isLt)
  rw [List.getElem_map, List.getElem_range, hleast _ (by rwa [BitVec.toNat_ofNat, hj16]), Bool.not_false]

end

/-- Settles O55: row 28 of R74 shares no word with an earlier row; the first key down is the least one, and with none the
instruction answers the state it started from. -/
theorem keyWaitTakesLeastKey : Obligations.KeyWaitTakesLeastKey := by
  unfold Obligations.KeyWaitTakesLeastKey
  have hrow := rowDecodes_of_clash (k := 27) rfl (by decide)
  refine ⟨hrow, fun s x => ⟨fun k hk hleast => ?_, fun hup => exec_ldVxK_none (firstKeyDown_eq_none hup)⟩⟩
  refine ⟨_, exec_ldVxK_some (firstKeyDown_eq_some hk hleast), ?_, s.advance_pc, onlyWrites_setReg s x _⟩
  rw [State.reg_setReg_same, BitVec.toNat_setWidth_of_le (by decide)]

end Sys2Proof.Machine
end

section
/-! Runs (20_memory.md R60; 70_reset_and_hazards.md R195, R198): the agenda as a run's order, the delay timer under fair ticks,
and the two waits, whose engine steps leave the state as it is. -/

namespace Sys2Proof.Machine

section
variable {s t u : State} {a : Addr}

/-! ### The end of a run -/

/-- At the end of a run the engine's step is the self-jump, which gives the same state back. -/
theorem State.AtEnd.engineStep (h : s.AtEnd a) : engineStep s = .next s := by
  obtain ⟨hF, hpc, hfetch⟩ := h
  rw [engineStep_exec hF hfetch (decode_encode rfl), exec_jp, State.jumpTo, ← hpc]

theorem SameCore.fetch (h : SameCore s t) : t.fetch = s.fetch := by
  rw [State.fetch, State.fetch, State.fetchable, State.fetchable, h.pc, h.M]

theorem State.AtEnd.of_sameCore (h : s.AtEnd a) (hc : SameCore s t) : t.AtEnd a := by
  obtain ⟨hF, hpc, hfetch⟩ := h
  exact ⟨hc.F.trans hF, hc.pc.trans hpc, hc.fetch.trans hfetch⟩

end

/-- Settles O15: with an empty agenda every step is the engine's, and each leaves the state as it is. -/
theorem selfJumpRunsForever : Obligations.SelfJumpRunsForever := by
  unfold Obligations.SelfJumpRunsForever
  intro s endAddr k hend hnil
  have hstep : step s = .next s := by
    rw [step_of_engine (nextTurn_of_nil hnil), takeTurn_of_nil hnil, hend.engineStep]
  induction k with
  | zero => rfl
  | succ k ih => exact (run_next hstep).trans ih

/-! ### Endless runs -/

section
variable {order : Nat → Turn} {state : Nat → State} {n m : Nat}

/-- With its turns from n on for an agenda, a state of a run steps through the run. -/
theorem Run.run_range' (hrun : Run order state) (k n : Nat) :
    Host.Core.run Sys2Proof.core k { state n with agenda := (List.range' n k).map order } = .next (state (n + k)) := by
  induction k generalizing n with
  | zero =>
    exact congrArg (fun a => Host.Outcome.next { state n with agenda := a }) (hrun.agenda n).symm
  | succ k ih =>
    have hstep : step { state n with agenda := (List.range' n (k + 1)).map order } =
        .next { state (n + 1) with agenda := (List.range' (n + 1) k).map order } := by
      show turnStep (order n) { state n with agenda := (List.range' (n + 1) k).map order } = _
      rw [turnStep_withAgenda, hrun.turn n]
      rfl
    rw [Nat.add_comm k 1, ← Nat.add_assoc, ← ih (n + 1), Nat.add_comm 1 k]
    exact run_next hstep

/-- What holds at step n and is kept by every step from n to m holds at step m. -/
theorem Run.induct (hrun : Run order state) {Q : State → Prop} (hnm : n ≤ m) (h : Q (state n))
    (hstep : ∀ j s t, n ≤ j → j < m → turnStep (order j) s = .next t → Q s → Q t) : Q (state m) := by
  induction m, hnm using Nat.le_induction with
  | base => exact h
  | succ m hnm ih =>
    exact hstep m _ _ hnm (Nat.lt_succ_self m) (hrun.turn m)
      (ih fun j s t hj hjm => hstep j s t hj (hjm.trans (Nat.lt_succ_self m)))

end

/-- Settles O57: an agenda of the first k turns takes the run's first state through k of the run's steps. -/
theorem runFollowsAgenda : Obligations.RunFollowsAgenda := by
  unfold Obligations.RunFollowsAgenda
  intro order state hrun k
  rw [List.range_eq_range', hrun.run_range' k 0, Nat.zero_add]

/-! ### The delay timer -/

/-- No engine step of the run from n on is LD DT, Vx. -/
def NoDelayWrite (order : Nat → Turn) (state : Nat → State) (n : Nat) : Prop :=
  ∀ m w x, n ≤ m → order m = .engine → (state m).fetch = some w → decode w ≠ .ok (.ldDTVx x)

section
variable {order : Nat → Turn} {state : Nat → State} {n m k : Nat}

/-- Then only ticks move DT. -/
theorem Run.DT_succ (hrun : Run order state) (hno : NoDelayWrite order state n) (hnm : n ≤ m) :
    (state (m + 1)).DT = if order m = .tick then ticked (state m).DT else (state m).DT := by
  have hturn := hrun.turn m
  cases ho : order m with
  | engine =>
    rw [ho] at hturn
    rw [if_neg nofun]
    exact (engineStep_DT hturn).resolve_right fun ⟨w, x, hfetch, hdec, _⟩ => hno m w x hnm ho hfetch hdec
  | shutdown => rw [ho] at hturn; cases hturn
  | tick =>
    rw [ho] at hturn
    rw [if_pos rfl]
    exact (congrArg State.DT (Host.Outcome.next.inj hturn) :).symm
  | keypad | readGrid | editThrottle =>
    rw [ho] at hturn
    rw [if_neg nofun]
    exact (congrArg State.DT (Host.Outcome.next.inj hturn) :).symm

theorem Run.DT_of_noTick (hrun : Run order state) (hno : NoDelayWrite order state n) (hnm : n ≤ m)
    (hticks : ∀ j, n ≤ j → j < m → order j ≠ .tick) : (state m).DT = (state n).DT := by
  induction m, hnm using Nat.le_induction with
  | base => rfl
  | succ m hnm ih =>
    rw [hrun.DT_succ hno hnm, if_neg (hticks m hnm (Nat.lt_succ_self m))]
    exact ih fun j hj hjm => hticks j hj (hjm.trans (Nat.lt_succ_self m))

theorem Run.DT_antitone (hrun : Run order state) (hno : NoDelayWrite order state n) (hnm : n ≤ m) (hmk : m ≤ k) :
    (state k).DT.toNat ≤ (state m).DT.toNat := by
  induction k, hmk using Nat.le_induction with
  | base => exact Nat.le_refl _
  | succ k hmk ih =>
    refine Nat.le_trans ?_ ih
    rw [hrun.DT_succ hno (hnm.trans hmk)]
    split
    · rw [ticked_toNat]; exact Nat.sub_le _ _
    · exact Nat.le_refl _

/-- A DT of at most d reaches 0: each of d ticks takes one. -/
theorem Run.exists_DT_zero (hrun : Run order state) (hno : NoDelayWrite order state n) (hfair : FairTicks order)
    (d : Nat) (hnm : n ≤ m) (hd : (state m).DT.toNat ≤ d) : ∃ k, m ≤ k ∧ (state k).DT.toNat = 0 := by
  induction d generalizing m with
  | zero => exact ⟨m, Nat.le_refl m, Nat.le_zero.mp hd⟩
  | succ d ih =>
    obtain ⟨j, hmj, hj⟩ := hfair m
    have hfall := hrun.DT_antitone hno hnm hmj
    have htick : (state (j + 1)).DT.toNat = (state j).DT.toNat - 1 := by
      rw [hrun.DT_succ hno (hnm.trans hmj), if_pos hj, ticked_toNat]
    obtain ⟨k, hjk, hk⟩ := ih (m := j + 1) (by omega) (by omega)
    exact ⟨k, by omega, hk⟩

end

/-- Settles O58: ticks alone move DT, each down by one; fair ticks bring it to 0, below which nothing falls. -/
theorem fairTicksBringDelayTimerToZero : Obligations.FairTicksBringDelayTimerToZero := by
  unfold Obligations.FairTicksBringDelayTimerToZero
  intro order state n hrun hno
  refine ⟨fun hfair => ?_, fun m hnm hticks => hrun.DT_of_noTick hno hnm hticks⟩
  obtain ⟨k, hnk, hk⟩ := hrun.exists_DT_zero hno hfair _ (Nat.le_refl n) (Nat.le_refl _)
  refine ⟨k, hnk, fun m hkm => BitVec.eq_of_toNat_eq ?_⟩
  have hfall := hrun.DT_antitone hno hnk hkm
  exact Nat.le_zero.mp (hk ▸ hfall)

/-! ### The two waits -/

section
variable {s t : State} {w : Word} {x : Nibble}

theorem eq_replicate_of_up {keys : Vector Bool 16} (h : ∀ k : Fin 16, keys[k] = false) :
    keys = Vector.replicate 16 false :=
  Vector.ext fun k hk => (h ⟨k, hk⟩).trans (Vector.getElem_replicate _).symm

/-- Every key up, as one value of the keypad. -/
theorem keysUp_iff : (∀ k : Nibble, s.keyDown k = false) ↔ s.K = Vector.replicate 16 false := by
  constructor
  · exact fun h => eq_replicate_of_up fun k => h (BitVec.ofFin k)
  · intro h k
    rw [State.keyDown, h]
    exact Vector.getElem_replicate _

/-- About to wait for a key, with every key up, the engine's step leaves the state as it is. -/
theorem engineStep_keyWait (hF : s.F = none) (hfetch : s.fetch = some w) (hdec : decode w = .ok (.ldVxK x))
    (hup : s.K = Vector.replicate 16 false) : engineStep s = .next s := by
  rw [engineStep_exec hF hfetch hdec, exec_ldVxK_none (firstKeyDown_eq_none (keysUp_iff.mpr hup))]

theorem turnStep_K {o : Turn} (ho : o ≠ .engine) (h : turnStep o s = .next t) : t.K = s.K ∨ o = .keypad t.K := by
  cases o
  case engine => exact absurd rfl ho
  case shutdown => cases h
  case keypad => cases h; exact .inr rfl
  all_goals cases h; exact .inl rfl

/-- With the keypad as before too, only DT and ST can have changed. -/
theorem SameCore.onlyWrites (h : SameCore s t) (hK : t.K = s.K) : OnlyWrites s t [.delay, .sound] where
  regs := fun r _ => congrArg (fun v : Vector Byte 16 => v[regIndex r]) h.V
  index := fun _ => h.I
  stack := fun _ => h.S
  delay := fun hd => absurd (List.mem_cons_self) hd
  sound := fun hs => absurd (List.mem_cons_of_mem _ (List.mem_singleton_self _)) hs
  grid := fun _ r c => congrArg (Grid.pixel · r c) h.P
  bytes := fun b _ => congrArg (Memory.read · b) h.M
  fault := fun _ => h.F
  keys := hK
  config := h.cfg

end

section
variable {order : Nat → Turn} {state : Nat → State} {n m : Nat}

/-- A key wait whose keypad snapshots all have every key up changes nothing of the core. -/
theorem Run.sameCore_keyWait (hrun : Run order state) (hnm : n ≤ m) {w : Word} {x : Nibble} (hF : (state n).F = none)
    (hfetch : (state n).fetch = some w) (hdec : decode w = .ok (.ldVxK x)) (hup : (state n).K = Vector.replicate 16 false)
    (hkeys : ∀ j keys, n ≤ j → j < m → order j = .keypad keys → ∀ k : Fin 16, keys[k] = false) :
    SameCore (state n) (state m) ∧ (state m).K = Vector.replicate 16 false := by
  refine hrun.induct (Q := fun s => SameCore (state n) s ∧ s.K = Vector.replicate 16 false) hnm
    ⟨SameCore.refl _, hup⟩ fun j s t hnj hjm hturn ⟨hc, hK⟩ => ?_
  by_cases ho : order j = .engine
  · have hwait := engineStep_keyWait (hc.F.trans hF) (hc.fetch.trans hfetch) hdec hK
    rw [ho] at hturn
    cases hwait.symm.trans hturn
    exact ⟨hc, hK⟩
  · refine ⟨hc.trans (sameCore_of_turnStep ho hturn), ?_⟩
    obtain hsame | hpad := turnStep_K ho hturn
    · exact hsame.trans hK
    · exact eq_replicate_of_up (hkeys j t.K hnj hjm hpad)

/-- From the end of a run on, nothing of the core changes. -/
theorem Run.sameCore_atEnd (hrun : Run order state) (hnm : n ≤ m) {a : Addr} (hend : (state n).AtEnd a) :
    SameCore (state n) (state m) := by
  refine hrun.induct (Q := SameCore (state n)) hnm (SameCore.refl _) fun j s t _ _ hturn hc => ?_
  by_cases ho : order j = .engine
  · rw [ho] at hturn
    cases (hend.of_sameCore hc).engineStep.symm.trans hturn
    exact hc
  · exact hc.trans (sameCore_of_turnStep ho hturn)

end

/-- Settles O59: in both waits the engine's steps leave the state as it is, and the other agents' steps leave its core. -/
theorem waitsRunForever : Obligations.WaitsRunForever := by
  unfold Obligations.WaitsRunForever
  intro order state n m hrun hnm
  refine ⟨fun ⟨w, x, hF, hfetch, hdec⟩ hup hkeys => ?_, fun endAddr hend => ?_⟩
  · have hup := keysUp_iff.mp hup
    obtain ⟨hc, hK⟩ := hrun.sameCore_keyWait hnm hF hfetch hdec hup hkeys
    exact ⟨hc.pc, keysUp_iff.mpr hK, hc.onlyWrites (hK.trans hup.symm)⟩
  · have hc := hrun.sameCore_atEnd hnm hend
    exact ⟨hend.of_sameCore hc, hc.V, hc.I, hc.S, hc.P, hc.M⟩

end Sys2Proof.Machine
end

section
/-! Jumps, calls, returns and register skips (41_control_flow.md R110 to R118). -/

namespace Sys2Proof.Machine

/-- Settles O30: row 4 of R74 shares no word with an earlier row; the jump writes pc alone, and 0xFFF has no second byte to
fetch. -/
theorem jpSetsPc : Obligations.JpSetsPc := by
  unfold Obligations.JpSetsPc
  refine ⟨rowDecodes_of_clash (k := 3) rfl (by decide), fun s nnn => ?_⟩
  refine ⟨_, exec_jp s nnn, zextAddr_toNat nnn, fun hnnn => fetch_eq_none_iff.mpr ?_, onlyWrites_jumpTo s _⟩
  rw [State.jumpTo_pc, zextAddr_toNat, hnnn]
  decide

/-- Settles O31: row 5 of R74 shares no word with an earlier row; `exec` branches on the bound as the statement does. -/
theorem callPushesReturnAddress : Obligations.CallPushesReturnAddress := by
  unfold Obligations.CallPushesReturnAddress
  refine ⟨rowDecodes_call, fun s nnn => ⟨fun hroom => ?_, exec_call_full⟩⟩
  exact ⟨_, exec_call_room hroom, rfl, zextAddr_toNat nnn, onlyWrites_call s _⟩

/-- Settles O32: the row has one word; `exec` branches on the stack as the statement does. -/
theorem retPopsPc : Obligations.RetPopsPc := by
  unfold Obligations.RetPopsPc
  have hword : decode 0x00EE#16 = .ok .ret := by decide
  refine ⟨rowDecodes_fullMask hword, fun s => ⟨fun a rest hS => ?_, exec_ret_nil⟩⟩
  exact ⟨_, exec_ret_cons hS, rfl, rfl, onlyWrites_ret s a rest⟩

/-- Settles O33: the stack CALL leaves has `ia + 2` on top of the old one. -/
theorem retResumesAfterCall : Obligations.RetResumesAfterCall := by
  unfold Obligations.RetResumesAfterCall
  intro s t u nnn hroom hcall hS
  obtain rfl := Host.Outcome.next.inj ((exec_call_room hroom).symm.trans hcall)
  exact ⟨_, exec_ret_cons hS, rfl, rfl⟩

/-- Settles O36: rows 8 and 20 of R74 share no word with an earlier row, and the two instructions are the skip taken on equal
and the skip taken on different registers. -/
theorem skipsOnRegisters : Obligations.SkipsOnRegisters := by
  unfold Obligations.SkipsOnRegisters
  have hse := rowDecodes_of_clash (k := 7) rfl (by decide)
  have hsne := rowDecodes_of_clash (k := 19) rfl (by decide)
  refine ⟨hse, hsne, fun s x y => ⟨?_, ?_⟩⟩
  · exact ⟨_, exec_seReg s x y, s.skipIf_pc_of_iff beq_iff_eq, onlyWrites_skipIf s _⟩
  · exact ⟨_, exec_sneReg s x y, s.skipIf_pc_of_iff_not bne_iff_ne, onlyWrites_skipIf s _⟩

/-- Settles O37: row 22 of R74 shares no word with an earlier row; 16 bits hold the sum of an address and a byte, and a pc
above 0xFFE has no second byte to fetch. -/
theorem jpV0AddsRegister : Obligations.JpV0AddsRegister := by
  unfold Obligations.JpV0AddsRegister
  refine ⟨rowDecodes_of_clash (k := 21) rfl (by decide), fun s nnn => ?_⟩
  refine ⟨_, exec_jpV0 s nnn, jpV0_target_toNat nnn _, fun hpc => fetch_eq_none_iff.mpr ?_, onlyWrites_jumpTo s _⟩
  exact Nat.lt_succ_of_le hpc

end Sys2Proof.Machine
end

section
/-! Arithmetic and logic with a flag (42_alu.md R133 to R147): the flags and results as numbers. -/

namespace Sys2Proof.Machine

theorem flagByte_toNat (b : Bool) : (flagByte b).toNat = b.toNat := by cases b <;> rfl

theorem flagByte_decide_toNat (p : Prop) [Decidable p] : (flagByte (decide p)).toNat = if p then 1 else 0 := by
  by_cases h : p <;> simp [flagByte, h]

section
variable (a b : Byte)

/-- Bit 8 of the sum of two bytes says that the sum exceeds a byte (R136). -/
theorem carryOut_eq : carryOut a b = decide (a.toNat + b.toNat > 255) := by
  have ha := a.isLt
  have hb := b.isLt
  rw [carryOut, BitVec.getLsbD, sum9_toNat, Nat.testBit_eq_decide_div_mod_eq]
  exact decide_eq_decide.mpr (by omega)

theorem subResult_toNat : (subResult a b).toNat = (a.toNat + 256 - b.toNat) % 256 := by
  have ha := a.isLt
  have hb := b.isLt
  rw [subResult, BitVec.toNat_ofInt]
  omega

theorem shrResult_toNat : (shrResult a).toNat = a.toNat / 2 := by
  rw [shrResult, BitVec.toNat_ushiftRight, Nat.shiftRight_eq_div_pow, Nat.pow_one]

theorem shlResult_toNat : (shlResult a).toNat = a.toNat * 2 % 256 := by
  rw [shlResult, BitVec.toNat_shiftLeft, Nat.shiftLeft_eq, Nat.pow_one]

theorem flagByte_shrOut_toNat : (flagByte (shrOut a)).toNat = a.toNat % 2 := by
  rw [flagByte_toNat, shrOut, BitVec.getLsbD, Nat.toNat_testBit, Nat.pow_zero, Nat.div_one]

theorem flagByte_shlOut_toNat : (flagByte (shlOut a)).toNat = a.toNat / 128 := by
  have ha := a.isLt
  rw [flagByte_toNat, shlOut, BitVec.getLsbD, Nat.toNat_testBit]
  omega

end

section
variable (s : State) (x : Nibble) (v f : Byte)

/-! ### What a write of a result and a flag leaves: the flag wins in VF (00_scope.md R15, D2) -/

theorem reg_flag_setRegFlag : (s.advance.setRegFlag x v f).reg 0xF#4 = f := by rw [State.reg_setRegFlag, if_pos rfl]

theorem reg_result_setRegFlag (hx : x ≠ 0xF#4) : (s.advance.setRegFlag x v f).reg x = v := by
  rw [State.reg_setRegFlag, if_neg hx, if_pos rfl]

end

/-- Settles O39: rows 12 to 14 of R74 share no word with an earlier row; each instruction writes its result to V[x] and then 0
to VF. -/
theorem logicResetsFlag : Obligations.LogicResetsFlag := by
  unfold Obligations.LogicResetsFlag
  have hor := rowDecodes_of_clash (k := 11) rfl (by decide)
  have hand := rowDecodes_of_clash (k := 12) rfl (by decide)
  have hxor := rowDecodes_of_clash (k := 13) rfl (by decide)
  refine ⟨hor, hand, hxor, fun s x y => ⟨?_, ?_, ?_⟩⟩
  · refine ⟨_, exec_orReg s x y, reg_flag_setRegFlag s x _ _, fun hx k => ?_, rfl, onlyWrites_setRegFlag s x _ _⟩
    rw [reg_result_setRegFlag s x _ _ hx, BitVec.getLsbD_or]
  · refine ⟨_, exec_andReg s x y, reg_flag_setRegFlag s x _ _, fun hx k => ?_, rfl, onlyWrites_setRegFlag s x _ _⟩
    rw [reg_result_setRegFlag s x _ _ hx, BitVec.getLsbD_and]
  · refine ⟨_, exec_xorReg s x y, reg_flag_setRegFlag s x _ _, fun hx k => ?_, rfl, onlyWrites_setRegFlag s x _ _⟩
    rw [reg_result_setRegFlag s x _ _ hx, BitVec.getLsbD_xor]

/-- Settles O40: row 15 of R74 shares no word with an earlier row; the flag and the result are bit 8 and the low byte of one
9-bit sum. -/
theorem addCarryLaw : Obligations.AddCarryLaw := by
  unfold Obligations.AddCarryLaw
  refine ⟨rowDecodes_of_clash (k := 14) rfl (by decide), fun s x y => ?_⟩
  have hflag : (flagByte (carryOut (s.reg x) (s.reg y))).toNat =
      if (s.reg x).toNat + (s.reg y).toNat > 255 then 1 else 0 := by rw [carryOut_eq, flagByte_decide_toNat]
  refine ⟨_, exec_addReg s x y, ?_, fun hx => ?_, rfl, onlyWrites_setRegFlag s x _ _⟩
  · rw [reg_flag_setRegFlag, hflag]
  · have ha := (s.reg x).isLt
    have hb := (s.reg y).isLt
    rw [reg_result_setRegFlag s x _ _ hx, reg_flag_setRegFlag, hflag, addResult_toNat]
    split <;> omega

/-- The borrow law of a subtraction `a - b` (R144). -/
theorem subResult_law (a b : Byte) :
    (subResult a b).toNat + b.toNat = a.toNat + 256 * (1 - (flagByte (notBorrow a b)).toNat) := by
  have ha := a.isLt
  have hb := b.isLt
  rw [subResult_toNat, notBorrow, flagByte_decide_toNat]
  split <;> omega

/-- Settles O41: rows 16 and 18 of R74 share no word with an earlier row; both instructions obey the law of one subtraction,
with the operands exchanged in SUBN. -/
theorem subtractBorrowLaw : Obligations.SubtractBorrowLaw := by
  unfold Obligations.SubtractBorrowLaw
  have hsub := rowDecodes_of_clash (k := 15) rfl (by decide)
  have hsubn := rowDecodes_of_clash (k := 17) rfl (by decide)
  refine ⟨hsub, hsubn, fun s x y => ⟨?_, ?_⟩⟩
  · refine ⟨_, exec_subReg s x y, ?_, fun hx => ?_, rfl, onlyWrites_setRegFlag s x _ _⟩
    · rw [reg_flag_setRegFlag, notBorrow, flagByte_decide_toNat]
    · rw [reg_result_setRegFlag s x _ _ hx, reg_flag_setRegFlag, subResult_law]
  · refine ⟨_, exec_subnReg s x y, ?_, fun hx => ?_, rfl, onlyWrites_setRegFlag s x _ _⟩
    · rw [reg_flag_setRegFlag, notBorrow, flagByte_decide_toNat]
    · rw [reg_result_setRegFlag s x _ _ hx, reg_flag_setRegFlag, subResult_law]

/-- Settles O42: rows 17 and 19 of R74 share no word with an earlier row; `src` is the register the model shifts, and the flag
and the result are its bits as numbers. -/
theorem shiftsByOne : Obligations.ShiftsByOne := by
  unfold Obligations.ShiftsByOne
  have hshr := rowDecodes_of_clash (k := 16) rfl (by decide)
  have hshl := rowDecodes_of_clash (k := 18) rfl (by decide)
  refine ⟨hshr, hshl, fun s x y src hsrc => ?_⟩
  have hsrc : s.shiftSource x y = src := hsrc.symm
  refine ⟨⟨_, exec_shrReg s x y, ?_, fun hx => ?_, rfl, onlyWrites_setRegFlag s x _ _⟩,
    ⟨_, exec_shlReg s x y, ?_, fun hx => ?_, rfl, onlyWrites_setRegFlag s x _ _⟩⟩
  · rw [reg_flag_setRegFlag, hsrc, flagByte_shrOut_toNat]
  · rw [reg_result_setRegFlag s x _ _ hx, hsrc, shrResult_toNat]
  · rw [reg_flag_setRegFlag, hsrc, flagByte_shlOut_toNat]
  · rw [reg_result_setRegFlag s x _ _ hx, hsrc, shlResult_toNat]

/-- Settles O43: row 23 of R74 shares no word with an earlier row; V[x] is the draw's byte under the mask, bit by bit. -/
theorem rndMasksFreeByte : Obligations.RndMasksFreeByte := by
  unfold Obligations.RndMasksFreeByte
  refine ⟨rowDecodes_of_clash (k := 22) rfl (by decide), fun s x nn => ?_⟩
  have hbit (k : Nat) : ((s.advance.setReg x (Config.randomByte s.draws &&& nn)).reg x).getLsbD k =
      ((Config.randomByte s.draws).getLsbD k && nn.getLsbD k) := by
    rw [State.reg_setReg_same, BitVec.getLsbD_and]
  refine ⟨_, exec_rnd s x nn, fun k hk => ?_, fun k hk => ?_, rfl, rfl, ?_⟩
  · exact (hbit k).trans (by rw [hk, Bool.and_false])
  · exact (hbit k).trans (by rw [hk, Bool.and_true])
  · exact onlyWrites_rnd s x _ _

end Sys2Proof.Machine
end

section
/-! The index register and the data instructions (43_index_memory.md R151 to R157; 60_exceptions.md R174). -/

namespace Sys2Proof.Machine

/-- Settles O29: the range check comes before any effect, and its fault is the record alone. -/
theorem dataFaultsChangeNothing : Obligations.DataFaultsChangeNothing := by
  unfold Obligations.DataFaultsChangeNothing
  intro s x y n
  exact ⟨fun h0 hhi => ⟨_, exec_drw_outOfRange h0 hhi, rfl⟩, fun hhi => ⟨_, exec_ldB_out hhi, rfl⟩,
    fun hhi => ⟨_, exec_storeRegs_out hhi, rfl⟩, fun hhi => ⟨_, exec_loadRegs_out hhi, rfl⟩⟩

/-! ### ADD I, Vx and LD F, Vx -/

theorem ofNat12_indexSum_toNat (i : Addr) (b : Byte) :
    (BitVec.ofNat 12 (indexSum i b)).toNat = (i.toNat + b.toNat) % 4096 := BitVec.toNat_ofNat _ _

/-- Taking 4096 off a sum that reaches it does not change the sum modulo 4096. -/
theorem ofNat12_indexSum_sub_toNat {i : Addr} {b : Byte} (h : 4096 ≤ indexSum i b) :
    (BitVec.ofNat 12 (indexSum i b - 4096)).toNat = (i.toNat + b.toNat) % 4096 :=
  (BitVec.toNat_ofNat _ _).trans (Nat.mod_eq_sub_mod h).symm

/-- Settles O45: row 31 of R74 shares no word with an earlier row; `exec` writes VF in the case that wraps and only there. -/
theorem addIWrapsAndFlags : Obligations.AddIWrapsAndFlags := by
  unfold Obligations.AddIWrapsAndFlags
  refine ⟨rowDecodes_of_clash (k := 30) rfl (by decide), fun s x => ?_⟩
  by_cases hsum : 4096 ≤ indexSum s.I (s.reg x)
  · refine ⟨_, exec_addI_wraps hsum, ofNat12_indexSum_sub_toNat hsum, ?_, rfl, onlyWrites_indexFlag s _ _⟩
    exact (State.reg_setReg_same _ flagReg _).trans (if_pos hsum).symm
  · refine ⟨_, exec_addI_below hsum, ofNat12_indexSum_toNat _ _, (if_neg hsum).symm, rfl,
      onlyWrites_indexNoFlag s _⟩

theorem glyphAddr_toNat (b : Byte) : (glyphAddr b).toNat = 0x050 + 5 * (b.toNat % 16) := by
  have hlow : (b &&& 0x0F#8).toNat = b.toNat % 16 := (BitVec.toNat_and _ _).trans (Nat.and_two_pow_sub_one_eq_mod _ 4)
  rw [glyphAddr, BitVec.toNat_ofNat, hlow]
  omega

/-- Settles O46: row 32 of R74 shares no word with an earlier row; 12 bits hold the address of the last glyph. -/
theorem ldFPointsAtGlyph : Obligations.LdFPointsAtGlyph := by
  unfold Obligations.LdFPointsAtGlyph
  refine ⟨rowDecodes_of_clash (k := 31) rfl (by decide), fun s x => ?_⟩
  have hglyph := glyphAddr_toNat (s.reg x)
  have hle : (glyphAddr (s.reg x)).toNat ≤ 0x09B := by omega
  exact ⟨_, exec_ldF s x, hglyph, hle, rfl, onlyWrites_index s _⟩

/-! ### What a bulk transfer reads and writes -/

section
variable (s : State) (x : Nibble)

theorem dataAddr_eq_add (k : Nat) : s.dataAddr k = s.dataAddr 0 + k := rfl

/-- The byte k places into a stretch that was written. -/
theorem Memory.read_writeBytes_add (m : Memory) (a : Nat) {vs : List Byte} {k : Nat} (hk : k < vs.length) :
    (m.writeBytes a vs).read (a + k) = vs.getD k 0#8 := by
  rw [Memory.read_writeBytes, if_pos ⟨Nat.le_add_right a k, Nat.add_lt_add_left hk a⟩, Nat.add_sub_cancel_left]

theorem Memory.readBytes_getD (m : Memory) (a : Nat) {n k : Nat} (hk : k < n) :
    (m.readBytes a n).getD k 0#8 = m.read (a + k) := by
  rw [List.getD_eq_getElem?_getD, Memory.readBytes_getElem?, if_pos hk, Option.getD_some]

/-- The bytes after LD [I], Vx (R154). -/
theorem read_bulkStore {k : Nibble} (hk : k.toNat ≤ x.toNat) :
    (s.M.writeBytes (s.dataAddr 0) (s.regsUpTo x)).read (s.dataAddr k.toNat) = s.reg k := by
  rw [dataAddr_eq_add s k.toNat, Memory.read_writeBytes_add _ _ (by rw [s.regsUpTo_length]; exact Nat.lt_succ_of_le hk),
    s.regsUpTo_getD x _ hk, BitVec.ofNat_toNat, BitVec.setWidth_eq]

/-- The registers after LD Vx, [I] (R155). -/
theorem reg_bulkLoad (k : Nibble) :
    (s.loadRegs (s.M.readBytes (s.dataAddr 0) (x.toNat + 1))).reg k =
      if k.toNat ≤ x.toNat then s.M.read (s.dataAddr k.toNat) else s.reg k := by
  have hlen := s.M.readBytes_length (s.dataAddr 0) (x.toNat + 1)
  rw [State.reg_loadRegs _ _ _ (hlen.trans_le x.isLt), hlen]
  refine ite_congr (propext Nat.lt_succ_iff) (fun hk => ?_) fun _ => rfl
  rw [Memory.readBytes_getD _ _ (Nat.lt_succ_of_le hk), dataAddr_eq_add s k.toNat]

/-- The index register after either (R157). -/
theorem indexAfterBulk_toNat : (s.indexAfterBulk x).toNat =
    if s.cfg.qIndexInc then (s.I.toNat + x.toNat + 1) % 4096 else s.I.toNat := by
  unfold State.indexAfterBulk
  split
  · exact (BitVec.toNat_ofNat _ _).trans (Nat.mod_mod _ _)
  · rfl

theorem bulkIndexParts_subset (ps : List Part) : bulkIndexParts s ++ ps ⊆ .index :: ps := by
  unfold bulkIndexParts
  split
  · exact List.Subset.refl _
  · exact List.subset_cons_self _ _

end

theorem bcdDigits_toNat (b : Byte) : ((bcdDigits b).getD 0 0#8).toNat = b.toNat / 100 ∧
    ((bcdDigits b).getD 1 0#8).toNat = b.toNat / 10 % 10 ∧ ((bcdDigits b).getD 2 0#8).toNat = b.toNat % 10 := by
  have hb := b.isLt
  refine ⟨(BitVec.toNat_ofNat _ _).trans ?_, (BitVec.toNat_ofNat _ _).trans ?_, (BitVec.toNat_ofNat _ _).trans ?_⟩
  all_goals omega

/-- Settles O47: row 33 of R74 shares no word with an earlier row; in range the instruction writes the three digits, each of
which a byte holds. -/
theorem ldBStoresDigits : Obligations.LdBStoresDigits := by
  unfold Obligations.LdBStoresDigits
  refine ⟨rowDecodes_ldB, fun s x hhi => ?_⟩
  obtain ⟨hhundreds, htens, hones⟩ := bcdDigits_toNat (s.reg x)
  have hread {k : Nat} (hk : k < (bcdDigits (s.reg x)).length) :
      (s.M.writeBytes (s.dataAddr 0) (bcdDigits (s.reg x))).read (s.dataAddr k) = (bcdDigits (s.reg x)).getD k 0#8 :=
    s.M.read_writeBytes_add _ hk
  have hlen : (bcdDigits (s.reg x)).length = 3 := rfl
  refine ⟨_, exec_ldB_in hhi, ?_, ?_, ?_, rfl, onlyWrites_bcd s _⟩
  · rw [hread (by omega), hhundreds]
  · rw [hread (by omega), htens]
  · rw [hread (by omega), hones]

/-- Settles O48: row 34 of R74 shares no word with an earlier row; in range the instruction writes V0 to Vx and then the index. -/
theorem storeRegsWritesMemory : Obligations.StoreRegsWritesMemory := by
  unfold Obligations.StoreRegsWritesMemory
  refine ⟨rowDecodes_storeRegs, fun s x hhi => ?_⟩
  exact ⟨_, exec_storeRegs_in hhi, fun k hk => read_bulkStore s x hk, indexAfterBulk_toNat s x, rfl,
    (onlyWrites_bulkStore s x).mono (bulkIndexParts_subset s _)⟩

/-- Settles O49: row 35 of R74 shares no word with an earlier row; in range the instruction writes V0 to Vx and then the index. -/
theorem loadRegsReadsMemory : Obligations.LoadRegsReadsMemory := by
  unfold Obligations.LoadRegsReadsMemory
  refine ⟨rowDecodes_loadRegs, fun s x hhi => ?_⟩
  exact ⟨_, exec_loadRegs_in hhi, reg_bulkLoad s.advance x, indexAfterBulk_toNat s x, rfl,
    (onlyWrites_bulkLoad s x).mono (bulkIndexParts_subset s _)⟩

/-- Settles O50: the load reads the bytes the store wrote, which are the registers. -/
theorem storeThenLoadRestores : Obligations.StoreThenLoadRestores := by
  unfold Obligations.StoreThenLoadRestores
  intro s t u x hhi hstore hI hbytes
  obtain rfl := Host.Outcome.next.inj ((exec_storeRegs_in hhi).symm.trans hstore)
  have haddr (k : Nat) : u.dataAddr k = s.dataAddr k := by rw [State.dataAddr, State.dataAddr, hI]
  refine ⟨_, exec_loadRegs_in (by rw [haddr]; exact hhi), fun k hk => ?_⟩
  have hload := (reg_bulkLoad u.advance x k).trans (if_pos hk)
  calc (u.advance.loadRegs (u.M.readBytes (u.dataAddr 0) (x.toNat + 1))).reg k
    _ = u.M.read (u.dataAddr k.toNat) := hload
    _ = u.M.read (s.dataAddr k.toNat) := by rw [haddr]
    _ = (s.M.writeBytes (s.dataAddr 0) (s.regsUpTo x)).read (s.dataAddr k.toNat) := hbytes k.toNat hk
    _ = s.reg k := read_bulkStore s x hk

/-- Settles O51: the next fetch reads the two bytes at I, and those are V0 and V1. -/
theorem nextFetchSeesStore : Obligations.NextFetchSeesStore := by
  unfold Obligations.NextFetchSeesStore
  intro s x hx hhi hpc
  refine ⟨_, exec_storeRegs_in hhi, fetch_eq_some_iff.mpr ⟨?_, ?_⟩⟩
  · have hlast : s.dataAddr x.toNat = s.dataAddr 0 + x.toNat := dataAddr_eq_add s x.toNat
    have htop : topAddr = 0xFFF := rfl
    show (s.pc + 2).toNat + 1 ≤ topAddr
    omega
  · show Memory.wordAt _ (s.pc + 2).toNat = _
    rw [hpc]
    exact congr (congrArg Word.ofBytes (read_bulkStore s x (k := 0x0#4) (Nat.zero_le _)))
      (read_bulkStore s x (k := 0x1#4) hx)

end Sys2Proof.Machine
end

section
/-! DRW (40_display.md R102, R103), from the closed form of the rasterizer. -/

namespace Sys2Proof.Machine

section
variable {s t : State} {x y n : Nibble} {r c : Nat}

/-- The sprite a DRW draws: the bytes from I on, at the wrapped start. -/
theorem spriteOn_iff : spriteOn s x y n r c ↔
    Grid.spriteBit (s.spriteCol x) (s.spriteRow y) (s.M.readBytes s.I.toNat n.toNat) r c = true := by
  unfold spriteOn Grid.spriteBit State.spriteCol State.spriteRow
  simp only [Bool.and_eq_true, decide_eq_true_eq]
  by_cases hrow : (s.reg y).toNat % 32 ≤ r ∧ r < (s.reg y).toNat % 32 + n.toNat
  · have hbyte : (s.M.readBytes s.I.toNat n.toNat).getD (r - (s.reg y).toNat % 32) 0#8 =
        s.M.read (s.dataAddr (r - (s.reg y).toNat % 32)) := s.M.readBytes_getD _ (by omega)
    rw [hbyte]
    constructor
    · rintro ⟨h1, h2, h3, h4, h5⟩
      exact ⟨⟨⟨h1, h3⟩, by omega⟩, h5⟩
    · rintro ⟨⟨⟨h1, h3⟩, h4⟩, h5⟩
      exact ⟨h1, hrow.2, h3, by omega, h5⟩
  · refine iff_of_false (fun ⟨h1, h2, _⟩ => hrow ⟨h1, h2⟩) fun ⟨⟨⟨h1, h3⟩, h4⟩, h5⟩ => ?_
    have hlen := s.M.readBytes_length s.I.toNat n.toNat
    have hpast : (s.M.readBytes s.I.toNat n.toNat).getD (r - (s.reg y).toNat % 32) 0#8 = 0#8 :=
      List.getD_eq_default _ _ (by omega)
    rw [hpast, BitVec.getLsbD_zero] at h5
    exact Bool.false_ne_true h5

/-- Each pixel of the drawn grid is flipped exactly under a set bit of the sprite. -/
theorem drawn_pixel (hr : r < 32) (hc : c < 64) : (s.drawn x y n).1.pixel r c =
    (s.P.pixel r c ^^ Grid.spriteBit (s.spriteCol x) (s.spriteRow y) (s.M.readBytes s.I.toNat n.toNat) r c) :=
  Grid.pixel_drawRows s.P _ hr hc

theorem drawn_collision : (s.drawn x y n).2 = true ↔
    ∃ r c, r < 32 ∧ c < 64 ∧ s.P.pixel r c = true ∧ spriteOn s x y n r c := by
  unfold State.drawn
  simp only [Grid.drawRows_collision, spriteOn_iff, and_comm (a := s.P.pixel _ _ = true)]

theorem flagByte_eq_one_iff {b : Bool} : flagByte b = 0x01#8 ↔ b = true := by cases b <;> decide
theorem flagByte_eq_zero_iff {b : Bool} : flagByte b = 0x00#8 ↔ b = false := by cases b <;> decide

/-- VF after a draw is the collision. -/
theorem reg_flag_drawn (s : State) (g : Grid) (f : Byte) : ({ s.advance with P := g }.setReg flagReg f).reg 0xF#4 = f :=
  State.reg_setReg_same _ flagReg f

end

/-- Settles O27: row 24 of R74 shares no word with an earlier row; in range the instruction leaves the drawn grid and the
collision flag, both known in closed form. -/
theorem drwXorsSprite : Obligations.DrwXorsSprite := by
  unfold Obligations.DrwXorsSprite
  refine ⟨rowDecodes_drw, fun s x y n hrange => ?_⟩
  refine ⟨_, exec_drw_inRange hrange, fun r c hr hc => ?_, ?_, ?_, rfl, onlyWrites_drawn s _ _⟩
  · rw [spriteOn_iff]
    show (s.drawn x y n).1.pixel r c = true ↔ _
    rw [drawn_pixel hr hc]
    cases s.P.pixel r c <;>
      cases Grid.spriteBit (s.spriteCol x) (s.spriteRow y) (s.M.readBytes s.I.toNat n.toNat) r c <;> decide
  · rw [reg_flag_drawn, flagByte_eq_one_iff, flagByte_eq_zero_iff]
    exact Bool.eq_false_or_eq_true _
  · rw [reg_flag_drawn, flagByte_eq_one_iff, drawn_collision]

section
variable {s u : State} {x y x' y' n : Nibble}

/-- Reading a stretch of bytes depends on those bytes only. -/
theorem readBytes_congr {m m' : Memory} {a k : Nat} (h : ∀ j, j < k → m'.read (a + j) = m.read (a + j)) :
    m'.readBytes a k = m.readBytes a k := by
  refine List.ext_getElem? fun j => ?_
  rw [Memory.readBytes_getElem?, Memory.readBytes_getElem?]
  exact ite_congr rfl (fun hj => congrArg some (h j hj)) fun _ => rfl

/-- A second draw of the same bytes at the same place takes back the first. -/
theorem drawn_drawn (hP : u.P = (s.drawn x y n).1) (hx : u.spriteCol x' = s.spriteCol x)
    (hy : u.spriteRow y' = s.spriteRow y)
    (hbytes : u.M.readBytes u.I.toNat n.toNat = s.M.readBytes s.I.toNat n.toNat) : (u.drawn x' y' n).1 = s.P := by
  refine Grid.ext_pixel fun r c hr hc => ?_
  rw [drawn_pixel hr hc, hP, drawn_pixel hr hc, hx, hy, hbytes, Bool.xor_assoc, Bool.xor_self, Bool.xor_false]

end

/-- Settles O28: the second draw XORs the same sprite, so the grid is back; where every covered pixel was off there is no first
collision, and after the first draw every covered pixel is on, so the second collides wherever the sprite has a set bit. -/
theorem drawingTwiceRestoresGrid : Obligations.DrawingTwiceRestoresGrid := by
  unfold Obligations.DrawingTwiceRestoresGrid
  intro s t u x y n x' y' hrange hdraw hP hI hbytes hx hy
  obtain rfl := Host.Outcome.next.inj ((exec_drw_inRange hrange).symm.trans hdraw)
  have hsame : u.M.readBytes u.I.toNat n.toNat = s.M.readBytes s.I.toNat n.toNat := by
    rw [hI]
    exact readBytes_congr hbytes
  have hP : u.P = (s.drawn x y n).1 := hP
  have hrange' : SpriteInRange u n := by rw [SpriteInRange, State.dataAddr, hI]; exact hrange
  have hon (r c : Nat) : spriteOn u x' y' n r c ↔ spriteOn s x y n r c := by
    have hcol : u.spriteCol x' = s.spriteCol x := hx
    have hrow : u.spriteRow y' = s.spriteRow y := hy
    rw [spriteOn_iff, spriteOn_iff, hcol, hrow, hsame]
  refine ⟨_, exec_drw_inRange hrange', drawn_drawn hP hx hy hsame, fun hoff => ⟨?_, ?_⟩⟩
  · rw [reg_flag_drawn, flagByte_eq_zero_iff, Bool.eq_false_iff, Ne, drawn_collision]
    rintro ⟨r, c, hr, hc, hpixel, hsprite⟩
    exact Bool.false_ne_true ((hoff r c hr hc hsprite).symm.trans hpixel)
  · rw [reg_flag_drawn, flagByte_eq_one_iff, drawn_collision]
    refine exists_congr fun r => exists_congr fun c => and_congr_right fun hr => and_congr_right fun hc => ?_
    rw [hon, and_iff_right_iff_imp]
    intro hsprite
    rw [hP, drawn_pixel hr hc, hoff r c hr hc hsprite, spriteOn_iff.mp hsprite]
    rfl

end Sys2Proof.Machine
end
